-- ==== Sys2Proof/Word.lean ====
section
/-! DEFINITION. The word types of the block (00_scope.md R11, R12): a byte is an unsigned 8-bit value, `Bytes` is a
finite sequence of bytes whose index 0 is the byte received, sent or produced first. -/

namespace Sys2Proof

/-- An unsigned 8-bit value (R11). -/
abbrev Byte := BitVec 8

/-- A finite sequence of bytes, of any length (R12, R10 "message lengths"). -/
abbrev Bytes := List Byte

/-- An error counter: `CNT_W` = 32 bits, unsigned, wrapping modulo `2^32` (R10, R36). -/
abbrev Counter := BitVec 32

end Sys2Proof
end

