-- ==== Sys2Proof/Config.lean ====
section
/-! DEFINITION. The implementation parameters of 00_scope.md R10. `CAP` and `KIND_MAP` are the two OPEN ones ("The
model takes each one as an argument"): they are a `Config` value, which State carries unchanged (log 3, 4). The
others have one value in the spec and are constants here. -/

namespace Sys2Proof

/-- The closed set of packet kinds (R16, R200), `NKIND` = 5 of them. -/
inductive Kind where
  | log | video | sound | network | input
  deriving DecidableEq, Repr

/-- `KIND_MAP`: the numeric value of each packet kind (R10, R83). -/
structure KindMap where
  log     : Byte
  video   : Byte
  sound   : Byte
  network : Byte
  input   : Byte
  deriving DecidableEq, Repr

/-- The reference mapping Log=0x00, Video=0x01, Sound=0x02, Network=0x03, Input=0x04 (R10, R83, D3). -/
def KindMap.reference : KindMap :=
  { log := 0x00#8, video := 0x01#8, sound := 0x02#8, network := 0x03#8, input := 0x04#8 }

/-- The five values of a mapping, in the order of the kinds. -/
def KindMap.values (km : KindMap) : Bytes :=
  [km.log, km.video, km.sound, km.network, km.input]

/-- The value a mapping gives to a kind: the kind byte on the wire (R80, R83). -/
def KindMap.valueOf (km : KindMap) : Kind → Byte
  | .log => km.log
  | .video => km.video
  | .sound => km.sound
  | .network => km.network
  | .input => km.input

/-- The parameters that differ from one implementation to another (R10). -/
structure Config where
  /-- `CAP`, the capacity in bytes of the reassembly buffer. -/
  cap     : Nat
  /-- `KIND_MAP`. -/
  kindMap : KindMap
  deriving DecidableEq, Repr

/-- The reference configuration: `CAP = 65536` (R10, D4) and the reference mapping (D3). -/
def Config.reference : Config := { cap := 65536, kindMap := KindMap.reference }

/-- What R10 asks of the parameters: `CAP >= 1`, and a mapping gives different kinds different values (R83: the kind
byte identifies the kind). -/
def Config.wf (cfg : Config) : Bool :=
  decide (1 ≤ cfg.cap) && decide cfg.kindMap.values.Nodup

/-- `OFS_W`: the width in bits of `WO` and `SC`, the smallest `w` with `2^w > CAP` (R10, R31; log 21). -/
def Config.ofsW (cfg : Config) : Nat := Nat.log2 cfg.cap + 1

/-- `CNT_W` (R10). -/
abbrev Config.cntW : Nat := 32

/-- `NCNT` (R10). -/
abbrev Config.ncnt : Nat := 5

/-- `RUN_MAX`: the longest run of non-zero bytes in one COBS block (R10). -/
abbrev Config.runMax : Nat := 254

/-- `CODE_FULL`: the code byte of a full block (R10). -/
abbrev Config.codeFull : Byte := 0xFF#8

/-- `DELIM`: the frame delimiter (R10). -/
abbrev Config.delim : Byte := 0x00#8

end Sys2Proof
end

