-- ==== Sys2Proof/Syntax.lean ====
section
/-! DEFINITION. The instructions: one constructor per mnemonic of spec/opcode_table.json, whose rows with the same
mnemonic are the pieces of one byte range (log 19). The rows lie in three encoding spaces (30_encoding.md): host
commands (R84), COBS code bytes (R82) and kind bytes (R83). -/

namespace Sys2Proof

/-- The three encoding spaces of the opcode table ("command", "code_byte", "kind_byte"). -/
inductive Space where
  | command | codeByte | kindByte
  deriving DecidableEq, Repr

/-- An instruction: a host command with its operands (R84), a code byte with the encoded bytes that follow it (R82),
or a kind byte with the message bytes that follow it (R83). -/
inductive Instr where
  /-- CHUNK `c`: present a received chunk (R160). -/
  | chunk (c : Bytes)
  /-- ENC `d`: COBS encode (R120). -/
  | enc (d : Bytes)
  /-- DEC `s`: COBS decode (R130). -/
  | dec (s : Bytes)
  /-- DISC `m`: discriminate a decoded message (R201). -/
  | disc (m : Bytes)
  /-- BUILD `k, p`: build an outbound frame (R220). -/
  | build (k : Byte) (p : Bytes)
  /-- RESET (R240). -/
  | reset
  /-- RDCNT `n`: read error counter `n` (R241). -/
  | rdcnt (n : Byte)
  /-- A transaction that is no command, kept whole (R242). -/
  | illegal (w : Bytes)
  /-- Code byte 0x00 where the decoder expects a code byte, and the bytes after it (R82, R130). -/
  | delim (rest : Bytes)
  /-- Code byte `c` of a RUN block, 0x01 to 0xFE, and the bytes after it (R82). -/
  | run (c : Byte) (rest : Bytes)
  /-- Code byte 0xFF of a FULL block, and the bytes after it (R82). -/
  | full (rest : Bytes)
  /-- The kind byte of Log, and the payload (R83, R202). -/
  | kindLog (payload : Bytes)
  /-- The kind byte of Video, and the payload (R83, R202). -/
  | kindVideo (payload : Bytes)
  /-- The kind byte of Sound, and the payload (R83, R202). -/
  | kindSound (payload : Bytes)
  /-- The kind byte of Network, and the payload (R83, R202). -/
  | kindNetwork (payload : Bytes)
  /-- The kind byte of Input, and the payload (R83, R202). -/
  | kindInput (payload : Bytes)
  /-- A first byte `k` that is the value of no kind, and the bytes after it (R203). -/
  | kindUnknown (k : Byte) (rest : Bytes)
  deriving DecidableEq, Repr

/-- The encoding space an instruction belongs to. -/
def Instr.space : Instr → Space
  | .chunk _ | .enc _ | .dec _ | .disc _ | .build _ _ | .reset | .rdcnt _ | .illegal _ => .command
  | .delim _ | .run _ _ | .full _ => .codeByte
  | .kindLog _ | .kindVideo _ | .kindSound _ | .kindNetwork _ | .kindInput _ | .kindUnknown _ _ => .kindByte

/-- The mnemonic of spec/opcode_table.json an instruction is a case of. -/
def Instr.mnemonic : Instr → String
  | .chunk _ => "CHUNK"
  | .enc _ => "ENC"
  | .dec _ => "DEC"
  | .disc _ => "DISC"
  | .build _ _ => "BUILD"
  | .reset => "RESET"
  | .rdcnt _ => "RDCNT"
  | .illegal _ => "ILLEGAL"
  | .delim _ => "DELIM"
  | .run _ _ => "RUN"
  | .full _ => "FULL"
  | .kindLog _ => "KIND_LOG"
  | .kindVideo _ => "KIND_VIDEO"
  | .kindSound _ => "KIND_SOUND"
  | .kindNetwork _ => "KIND_NETWORK"
  | .kindInput _ => "KIND_INPUT"
  | .kindUnknown _ _ => "KIND_UNKNOWN"

end Sys2Proof
end

