-- ==== Sys2Proof/WellFormed.lean ====
section
/-! DEFINITION. Which instruction terms stand for something the table encodes. Three constructors need a check: an
illegal transaction must not have a command's shape (R87, R242), a RUN code byte lies in 0x01..0xFE (R82), and an
unknown kind byte is the value of no kind (R83). -/

namespace Sys2Proof

/-- The transactions that are commands: an opcode of R84 with the shape of its format (R86). Written apart from the
decoder, so that the round trip says something about it. -/
def commandShape : Bytes → Bool
  | [] => false
  | op :: operand =>
    if op = 0x05#8 then !operand.isEmpty
    else if op = 0x07#8 then decide (operand.length = 1)
    else decide (0x01#8 ≤ op ∧ op ≤ 0x07#8)

/-- The check of an instruction under a configuration (`KIND_MAP` decides which kind bytes are unknown). -/
def Instr.wellFormed (cfg : Config) : Instr → Bool
  | .chunk _ | .enc _ | .dec _ | .disc _ | .build _ _ | .reset | .rdcnt _ => true
  | .illegal w => !commandShape w
  | .delim _ | .full _ => true
  | .run c _ => decide (0x01#8 ≤ c ∧ c ≤ 0xFE#8)
  | .kindLog _ | .kindVideo _ | .kindSound _ | .kindNetwork _ | .kindInput _ => true
  | .kindUnknown k _ => !cfg.kindMap.values.contains k

end Sys2Proof
end

