-- ==== Sys2Proof/Decode.lean ====
section
/-! DEFINITION. Decoding, total on any bytes in each of the three spaces, and after it the encoder, written from the
same tables of 30_encoding.md (R82, R83, R84, R86, R87). -/

namespace Sys2Proof

/-- Why a transaction is illegal: the four cases of R242. -/
inductive IllegalCause where
  /-- A transaction of length 0. -/
  | emptyTransaction
  /-- The opcode is 0x00 or 0x08 to 0xFF. -/
  | opcode (op : Byte)
  /-- A CMD-KS command shorter than 2 bytes. -/
  | shortBuild
  /-- A CMD-I command whose length is not 2. -/
  | rdcntLength (n : Nat)
  deriving DecidableEq, Repr

/-- R242: the name of what is wrong with a transaction, `none` for a command. -/
def illegalCause : Bytes → Option IllegalCause
  | [] => some .emptyTransaction
  | op :: operand =>
    if op = 0x01#8 ∨ op = 0x02#8 ∨ op = 0x03#8 ∨ op = 0x04#8 ∨ op = 0x06#8 then none
    else if op = 0x05#8 then (if operand = [] then some .shortBuild else none)
    else if op = 0x07#8 then (if operand.length = 1 then none else some (.rdcntLength (operand.length + 1)))
    else some (.opcode op)

/-- R87: read the command of a transaction `w`. Every byte sequence, including `[]`, is a command or illegal. RESET
ignores the bytes after its opcode (R242; log 17). -/
def decode (w : Bytes) : Instr :=
  match w with
  | [] => .illegal []
  | op :: operand =>
    if op = 0x01#8 then .chunk operand
    else if op = 0x02#8 then .enc operand
    else if op = 0x03#8 then .dec operand
    else if op = 0x04#8 then .disc operand
    else if op = 0x05#8 then
      match operand with
      | [] => .illegal w
      | k :: p => .build k p
    else if op = 0x06#8 then .reset
    else if op = 0x07#8 then
      match operand with
      | [n] => .rdcnt n
      | _ => .illegal w
    else .illegal w

/-- The classes of a byte met where the decoder expects a code byte (R82). -/
inductive CodeClass where
  | delim | run | full
  deriving DecidableEq, Repr

/-- R82: 0x00 is DELIM, 0x01..0xFE is RUN, 0xFF is FULL. -/
def codeClass (c : Byte) : CodeClass :=
  if c = Config.delim then .delim else if c = Config.codeFull then .full else .run

/-- The code-byte space: the row an encoded part begins with; `none` when no byte is left. -/
def decodeCode : Bytes → Option Instr
  | [] => none
  | c :: rest =>
    match codeClass c with
    | .delim => some (.delim rest)
    | .run => some (.run c rest)
    | .full => some (.full rest)

/-- `KIND_MAP` read backwards: the kind of a kind byte (R83, R202), `none` where it is the value of no kind (R203). -/
def KindMap.kindOf? (km : KindMap) (k : Byte) : Option Kind :=
  if k = km.log then some .log
  else if k = km.video then some .video
  else if k = km.sound then some .sound
  else if k = km.network then some .network
  else if k = km.input then some .input
  else none

/-- The kind-byte space: the row a decoded message begins with; `none` for the empty message (R204). -/
def decodeKind (km : KindMap) : Bytes → Option Instr
  | [] => none
  | k :: rest =>
    match km.kindOf? k with
    | some .log => some (.kindLog rest)
    | some .video => some (.kindVideo rest)
    | some .sound => some (.kindSound rest)
    | some .network => some (.kindNetwork rest)
    | some .input => some (.kindInput rest)
    | none => some (.kindUnknown k rest)

/-- Decoding in a given space. -/
def decodeIn (cfg : Config) (sp : Space) (w : Bytes) : Option Instr :=
  match sp with
  | .command => some (decode w)
  | .codeByte => decodeCode w
  | .kindByte => decodeKind cfg.kindMap w

/-- The bytes of an instruction in its space: a transaction (R84, R86), the code byte and what follows (R82), the kind
byte and what follows (R83). -/
def encode (cfg : Config) : Instr → Bytes
  | .chunk c => 0x01#8 :: c
  | .enc d => 0x02#8 :: d
  | .dec s => 0x03#8 :: s
  | .disc m => 0x04#8 :: m
  | .build k p => 0x05#8 :: k :: p
  | .reset => [0x06#8]
  | .rdcnt n => [0x07#8, n]
  | .illegal w => w
  | .delim rest => 0x00#8 :: rest
  | .run c rest => c :: rest
  | .full rest => 0xFF#8 :: rest
  | .kindLog payload => cfg.kindMap.log :: payload
  | .kindVideo payload => cfg.kindMap.video :: payload
  | .kindSound payload => cfg.kindMap.sound :: payload
  | .kindNetwork payload => cfg.kindMap.network :: payload
  | .kindInput payload => cfg.kindMap.input :: payload
  | .kindUnknown k rest => k :: rest

/-- The low `n` bytes of `w`, least significant first. -/
def lowBytes : Nat → Nat → Bytes
  | 0, _ => []
  | n + 1, w => BitVec.ofNat 8 w :: lowBytes n (w / 256)

/-- The transaction that an opcode-table row of `nbits` bits with value `w` stands for: its bytes, the first in bits
7..0, and a zero for each operand byte the opcode's format requires and the row leaves out (`k` of BUILD, `n` of RDCNT;
log 10). -/
def tableTransaction (nbits w : Nat) : Bytes :=
  match lowBytes ((nbits + 7) / 8) w with
  | [op] => if op = 0x05#8 ∨ op = 0x07#8 then [op, 0x00#8] else [op]
  | t => t

/-- The instruction the decoder reads from a table word, in the command space, the one a host presents (log 9). -/
def decodeTableWord (nbits w : Nat) : Option Instr := some (decode (tableTransaction nbits w))

/-- One row of spec/opcode_table.json. -/
structure TableRow where
  space    : Space
  mnemonic : String
  pattern  : Byte
  mask     : Byte
  deriving DecidableEq, Repr

/-- A byte matches a row when it agrees with the pattern under the mask. -/
def TableRow.hits (r : TableRow) (b : Byte) : Bool := b &&& r.mask == r.pattern

/-- The rows of the command space, as the table lists them. -/
def commandRows : List TableRow :=
  [⟨.command, "CHUNK", 0x01#8, 0xFF#8⟩, ⟨.command, "ENC", 0x02#8, 0xFF#8⟩, ⟨.command, "DEC", 0x03#8, 0xFF#8⟩,
   ⟨.command, "DISC", 0x04#8, 0xFF#8⟩, ⟨.command, "BUILD", 0x05#8, 0xFF#8⟩, ⟨.command, "RESET", 0x06#8, 0xFF#8⟩,
   ⟨.command, "RDCNT", 0x07#8, 0xFF#8⟩, ⟨.command, "ILLEGAL", 0x00#8, 0xFF#8⟩, ⟨.command, "ILLEGAL", 0x08#8, 0xF8#8⟩,
   ⟨.command, "ILLEGAL", 0x10#8, 0xF0#8⟩, ⟨.command, "ILLEGAL", 0x20#8, 0xE0#8⟩, ⟨.command, "ILLEGAL", 0x40#8, 0xC0#8⟩,
   ⟨.command, "ILLEGAL", 0x80#8, 0x80#8⟩]

/-- The rows of the code-byte space. -/
def codeRows : List TableRow :=
  [⟨.codeByte, "DELIM", 0x00#8, 0xFF#8⟩, ⟨.codeByte, "RUN", 0x01#8, 0xFF#8⟩, ⟨.codeByte, "RUN", 0x02#8, 0xFE#8⟩,
   ⟨.codeByte, "RUN", 0x04#8, 0xFC#8⟩, ⟨.codeByte, "RUN", 0x08#8, 0xF8#8⟩, ⟨.codeByte, "RUN", 0x10#8, 0xF0#8⟩,
   ⟨.codeByte, "RUN", 0x20#8, 0xE0#8⟩, ⟨.codeByte, "RUN", 0x40#8, 0xC0#8⟩, ⟨.codeByte, "RUN", 0x80#8, 0xC0#8⟩,
   ⟨.codeByte, "RUN", 0xC0#8, 0xE0#8⟩, ⟨.codeByte, "RUN", 0xE0#8, 0xF0#8⟩, ⟨.codeByte, "RUN", 0xF0#8, 0xF8#8⟩,
   ⟨.codeByte, "RUN", 0xF8#8, 0xFC#8⟩, ⟨.codeByte, "RUN", 0xFC#8, 0xFE#8⟩, ⟨.codeByte, "RUN", 0xFE#8, 0xFF#8⟩,
   ⟨.codeByte, "FULL", 0xFF#8, 0xFF#8⟩]

/-- The rows of the kind-byte space, at the reference `KIND_MAP`. -/
def kindRows : List TableRow :=
  [⟨.kindByte, "KIND_LOG", 0x00#8, 0xFF#8⟩, ⟨.kindByte, "KIND_VIDEO", 0x01#8, 0xFF#8⟩,
   ⟨.kindByte, "KIND_SOUND", 0x02#8, 0xFF#8⟩, ⟨.kindByte, "KIND_NETWORK", 0x03#8, 0xFF#8⟩,
   ⟨.kindByte, "KIND_INPUT", 0x04#8, 0xFF#8⟩, ⟨.kindByte, "KIND_UNKNOWN", 0x05#8, 0xFF#8⟩,
   ⟨.kindByte, "KIND_UNKNOWN", 0x06#8, 0xFE#8⟩, ⟨.kindByte, "KIND_UNKNOWN", 0x08#8, 0xF8#8⟩,
   ⟨.kindByte, "KIND_UNKNOWN", 0x10#8, 0xF0#8⟩, ⟨.kindByte, "KIND_UNKNOWN", 0x20#8, 0xE0#8⟩,
   ⟨.kindByte, "KIND_UNKNOWN", 0x40#8, 0xC0#8⟩, ⟨.kindByte, "KIND_UNKNOWN", 0x80#8, 0x80#8⟩]

/-- spec/opcode_table.json whole: 41 rows. -/
def opcodeTable : List TableRow := commandRows ++ codeRows ++ kindRows

/-- The mnemonics of the rows of a space that a byte matches. -/
def rowsOf (sp : Space) (b : Byte) : List String :=
  (opcodeTable.filter (fun r => decide (r.space = sp) && r.hits b)).map TableRow.mnemonic

end Sys2Proof
end

