-- ==== Sys2Proof/Machine/State.lean ====
section
/-! DEFINITION. The state of one instance of the block (10_state.md R30, R45) as plain data, the records it answers
with (30_encoding.md R85), the reasons a step can stop, and the state after reset (R41). -/

namespace Sys2Proof.Machine

/-- A packet (R16, R200): its kind and an opaque payload. -/
structure Packet where
  kind    : Kind
  payload : Bytes
  deriving DecidableEq, Repr

/-- The result of discriminating a decoded message (R85). -/
inductive DiscResult where
  | ok (p : Packet)
  | empty
  | unknown (k : Byte)
  deriving DecidableEq, Repr

/-- The error events (R261); `EventCode.byte` of Machine/Flags.lean gives their codes. -/
inductive EventCode where
  | busyDrop | overflow | frameTruncated | frameEmpty | unknownKind
  deriving DecidableEq, Repr

/-- An event in a response: its code and its information byte, if any (R85, R261). -/
structure Event where
  code : EventCode
  info : Option Byte
  deriving DecidableEq, Repr

/-- The command status codes (R268); `Status.byte` of Machine/Flags.lean gives their values. -/
inductive Status where
  | ok | illegalCommand | badKind | badIndex
  deriving DecidableEq, Repr

/-- The response records, one form per command (R85). -/
inductive Response where
  | chunk (packet : Option Packet) (events : List Event)
  | enc (out : Bytes)
  | dec (out : Bytes) (truncated : Bool)
  | disc (result : DiscResult)
  | build (status : Status) (frame : Bytes)
  | reset (status : Status)
  | rdcnt (status : Status) (value : Counter)
  | illegal (status : Status)
  deriving DecidableEq, Repr

/-- A response and the host agent it is delivered to (R13 `respond`). -/
structure Delivery where
  agent    : Nat
  response : Response
  deriving DecidableEq, Repr

/-- What the outside can make happen at a step (R9, R68, R160, R290, R292; log 1, 12, 14). -/
inductive Stimulus where
  /-- Host agent `agent` presents the transaction `w`. -/
  | present (agent : Nat) (w : Bytes)
  /-- The schedule lets the block take its own step COMPLETE here, if it is enabled. -/
  | complete
  /-- The connection is torn down and the next one creates the instance anew. -/
  | reconnect
  deriving DecidableEq, Repr

/-- The five error counters `CNT[0..4]` (R36). -/
structure Counters where
  busyDrop    : Counter
  overflow    : Counter
  trunc       : Counter
  empty       : Counter
  unknownKind : Counter
  deriving DecidableEq, Repr

/-- All five counters at zero (R41). -/
def Counters.zero : Counters :=
  { busyDrop := 0#32, overflow := 0#32, trunc := 0#32, empty := 0#32, unknownKind := 0#32 }

/-- The bytes of the reassembly buffer that are not `Memory.unlisted`, by index. -/
abbrev Memory := List Host.Cell

/-- What an index of `BUF` that is not listed reads as. At reset that is every index: R41 lets the model give `BUF` any
initial contents, and this one gives it zeros (DESIGN CHOICE, log 5). -/
def Memory.unlisted : Byte := 0x00#8

/-- The canonical form: indices strictly rising, and no entry with what an unlisted index reads as. -/
abbrev Memory.wf (m : Memory) : Prop :=
  m.Pairwise (fun x y => x.1 < y.1) ∧ ∀ x ∈ m, x.2 ≠ Memory.unlisted

/-- Why a step stops. The reason is unreachable from a state that meets `State.Inv` of Safety.lean. -/
inductive Fault where
  /-- An access to `BUF[a]` with `a >= CAP`, which R62 does not define ("a model may therefore define an out-of-range
  access as a fault, and that fault is unreachable"). Raised by `memRead` and `memWrite`, so by COMPLETE only. Safe
  (log 6). -/
  | bufOutOfRange (a : Nat)
  deriving DecidableEq, Repr

/-- Why an instruction has no meaning. -/
inductive Refusal where
  /-- Raised by an arm of `exec` for an instruction without a meaning yet; no arm does. Safe. -/
  | notModelled (mnemonic : String)
  deriving DecidableEq, Repr

/-- One instance of the block (R30, R45; log 20), the configuration it was built with (R10), and the host's side of it. -/
structure State where
  /-- The model's own: the parameters of R10, which no step changes (log 3). -/
  cfg        : Config
  /-- `BUF[0..CAP-1]` (R37). -/
  mem        : Memory
  /-- `WO`, the count of valid bytes in `BUF` (R31; a number that never wraps, R14, log 7). -/
  wo         : Nat
  /-- `SC`, where the next delimiter search starts (R33; log 7). -/
  sc         : Nat
  /-- `BUSY`, a CHUNK is in flight (R32). -/
  busy       : Bool
  /-- `HUNT`, resynchronising after an overflow (R34). -/
  hunt       : Bool
  /-- `PEND`, the chunk latched by ACCEPT (R35). -/
  pend       : Bytes
  /-- `CNT[0..4]`, the error counters (R36). -/
  cnt        : Counters
  /-- The model's own: what the host makes happen next, first element first (log 1). -/
  queue      : List Stimulus
  /-- The model's own: the host agent whose command is being presented, or was last (log 13). -/
  agent      : Nat
  /-- The model's own: the host agent whose CHUNK ACCEPT latched, 0 while `BUSY = 0` (R162; log 13). -/
  owner      : Nat
  /-- The model's own: the responses delivered so far, oldest first (R13, R40; log 2). -/
  deliveries : List Delivery
  deriving DecidableEq, Repr

/-- The state after reset, every register as R41 gives it, in the reference configuration, with zeros in `BUF`
(log 5), no host command waiting and no response delivered. -/
def State.reset : State :=
  { cfg := Config.reference
    mem := []
    wo := 0
    sc := 0
    busy := false
    hunt := false
    pend := []
    cnt := Counters.zero
    queue := []
    agent := 0
    owner := 0
    deliveries := [] }

end Sys2Proof.Machine
end

