-- ==== Sys2Proof/Machine/Flags.lean ====
section
/-! DEFINITION. The flags BUSY and HUNT (10_state.md R44), the error counters (R36), event and status codes
(60_exceptions.md R261, R268) and `raise` (R262). The block has no condition codes. -/

namespace Sys2Proof.Machine

/-- The code of an event (R261). -/
def EventCode.byte : EventCode → Byte
  | .busyDrop => 0x01#8
  | .overflow => 0x02#8
  | .frameTruncated => 0x03#8
  | .frameEmpty => 0x04#8
  | .unknownKind => 0x05#8

/-- The value of a status code (R268). -/
def Status.byte : Status → Byte
  | .ok => 0x00#8
  | .illegalCommand => 0x10#8
  | .badKind => 0x11#8
  | .badIndex => 0x12#8

/-- The counter of an event (R36, R261). -/
def Counters.get (n : Counters) : EventCode → Counter
  | .busyDrop => n.busyDrop
  | .overflow => n.overflow
  | .frameTruncated => n.trunc
  | .frameEmpty => n.empty
  | .unknownKind => n.unknownKind

/-- One more of an event, modulo `2^32` (R36, R262). -/
def Counters.incr (n : Counters) : EventCode → Counters
  | .busyDrop => { n with busyDrop := n.busyDrop + 1#32 }
  | .overflow => { n with overflow := n.overflow + 1#32 }
  | .frameTruncated => { n with trunc := n.trunc + 1#32 }
  | .frameEmpty => { n with empty := n.empty + 1#32 }
  | .unknownKind => { n with unknownKind := n.unknownKind + 1#32 }

/-- `CNT[n]` by its index byte; `none` for an index above 4 (R36, R241). -/
def Counters.index (c : Counters) (n : Byte) : Option Counter :=
  if n = 0x00#8 then some c.busyDrop
  else if n = 0x01#8 then some c.overflow
  else if n = 0x02#8 then some c.trunc
  else if n = 0x03#8 then some c.empty
  else if n = 0x04#8 then some c.unknownKind
  else none

/-- The counter half of `raise E` (R262). -/
def State.count (s : State) (e : EventCode) : State := { s with cnt := s.cnt.incr e }

/-- A command in progress: the state so far and the events of the response under construction, in the order raised. -/
structure Progress where
  state  : State
  events : List Event
  deriving DecidableEq, Repr

/-- `raise E(info)`: append the event and count it; the command goes on (R13, R262). -/
def Progress.raise (x : Progress) (e : EventCode) (info : Option Byte) : Progress :=
  { state := x.state.count e, events := x.events ++ [{ code := e, info := info }] }

/-- ACCEPT's test-and-set: `BUSY <- 1`, `PEND <- c`, and the issuing agent is the one COMPLETE will answer (R70, R161,
R162). -/
def State.latch (s : State) (c : Bytes) : State := { s with busy := true, pend := c, owner := s.agent }

/-- `PEND <- []`, `BUSY <- 0` (R162, R240); no chunk is in flight, so none has an owner. -/
def State.unlatch (s : State) : State := { s with busy := false, pend := [], owner := 0 }

/-- `HUNT <- 0` (R163, R170). -/
def State.endHunt (s : State) : State := { s with hunt := false }

/-- The overflow branch's writes: `WO <- 0`, `SC <- 0`, `HUNT <- 1` (R163, R169). -/
def State.discard (s : State) : State := { s with wo := 0, sc := 0, hunt := true }

end Sys2Proof.Machine
end

