-- ==== Sys2Proof/Machine/Operands.lean ====
section
/-! DEFINITION. Operand forms: byte sequences as they are given, index order, no extension (30_encoding.md R86; R12),
and the byte form of the one result wider than a byte (20_memory.md R64). -/

namespace Sys2Proof.Machine

/-- `firstZero(s, 0, len(s))`: the least index of a 0x00, or `none` (R12). -/
def firstZero : Bytes → Option Nat
  | [] => none
  | b :: t => if b = Config.delim then some 0 else (firstZero t).map (· + 1)

/-- RDCNT's value as bytes, should an implementation serialise it: least significant byte first (R64, D12; log 18). -/
def counterBytes (v : Counter) : Bytes :=
  [v.extractLsb' 0 8, v.extractLsb' 8 8, v.extractLsb' 16 8, v.extractLsb' 24 8]

end Sys2Proof.Machine
end

