-- ==== Sys2Proof/Machine/Ops.lean ====
section
/-! DEFINITION. The shared operations: the accesses to `BUF` (20_memory.md R62, R63), `respond` (R13), creation of an
instance (70_reset_and_hazards.md R290), and what a step does next (00_scope.md R9). The block takes no exceptions and
returns from none (60_exceptions.md R260, R271): an error is an event of `Progress.raise` or a status of a response. -/

namespace Sys2Proof.Machine

/-- The byte at an index of the buffer (R37, R61). -/
def Memory.read : Memory → Nat → Byte
  | [], _ => Memory.unlisted
  | (x, v) :: t, a => if x = a then v else Memory.read t a

/-- The buffer with an entry set, in its place by index. -/
def Memory.insert : Memory → Nat → Byte → Memory
  | [], a, b => [(a, b)]
  | (x, v) :: t, a, b =>
    if a < x then (a, b) :: (x, v) :: t
    else if a = x then (a, b) :: t
    else (x, v) :: Memory.insert t a b

/-- The buffer with no entry at an index. -/
def Memory.erase (m : Memory) (a : Nat) : Memory := m.filter (fun x => decide (x.1 ≠ a))

/-- The buffer with one byte set, in canonical form: no entry is kept for what an unlisted index reads as. -/
def Memory.write (m : Memory) (a : Nat) (b : Byte) : Memory :=
  if b = Memory.unlisted then m.erase a else m.insert a b

/-- `MemRead(a, 1)`: the byte `BUF[a]`, for every `a < CAP` (R13, R62). -/
def memRead (cap : Nat) (m : Memory) (a : Nat) : Except Fault Byte :=
  if a < cap then .ok (m.read a) else .error (.bufOutOfRange a)

/-- `MemWrite(a, 1, b)`, defined for `a < CAP` (R13, R62). -/
def memWrite (cap : Nat) (m : Memory) (a : Nat) (b : Byte) : Except Fault Memory :=
  if a < cap then .ok (m.write a b) else .error (.bufOutOfRange a)

/-- `MemRead(a + j, 1)` for `j` in `0..n-1`, in index order (R63). -/
def memReadRange (cap : Nat) (m : Memory) (a : Nat) : Nat → Except Fault Bytes
  | 0 => .ok []
  | n + 1 =>
    match memRead cap m a with
    | .error f => .error f
    | .ok b =>
      match memReadRange cap m (a + 1) n with
      | .error f => .error f
      | .ok bs => .ok (b :: bs)

/-- `MemWrite(a + j, 1, bs[j])` for `j` in `0..len(bs)-1`, in index order (R63, R164). -/
def memWriteRange (cap : Nat) (m : Memory) (a : Nat) : Bytes → Except Fault Memory
  | [] => .ok m
  | b :: bs =>
    match memWrite cap m a b with
    | .error f => .error f
    | .ok m' => memWriteRange cap m' (a + 1) bs

/-- `firstZero(BUF, a, a + n)`: read upward from `a` until the first 0x00, and no byte after it (R12, R63, R165). -/
def bufFirstZero (cap : Nat) (m : Memory) (a : Nat) : Nat → Except Fault (Option Nat)
  | 0 => .ok none
  | n + 1 =>
    match memRead cap m a with
    | .error f => .error f
    | .ok b => if b = Config.delim then .ok (some a) else bufFirstZero cap m (a + 1) n

/-- Deliver a response to a host agent (R13). -/
def State.deliverTo (s : State) (a : Nat) (r : Response) : State :=
  { s with deliveries := s.deliveries ++ [{ agent := a, response := r }] }

/-- `respond(r)`: deliver a response to the host agent that issued the command being performed (R13). -/
def State.respond (s : State) (r : Response) : State := s.deliverTo s.agent r

/-- The writes of RESET (R240): every register of R41 to its reset value, and `BUF` not written. -/
def State.clear (s : State) : State :=
  { s.unlatch with wo := 0, sc := 0, hunt := false, cnt := Counters.zero }

/-- Teardown and creation (R290 a, R292): the instance and all its state are discarded, no response is owed, and the
next connection's instance starts in the state of R41 with the same configuration. The host's side stays (log 14). -/
def State.recreate (s : State) : State :=
  { State.reset with cfg := s.cfg, queue := s.queue, deliveries := s.deliveries }

/-- What a step does (R9, R161, R162). -/
inductive Action where
  /-- Perform the command of a transaction, presented by the state's agent. -/
  | command (w : Bytes)
  /-- Take the block's own step COMPLETE. -/
  | complete
  /-- Tear the instance down and create it anew. -/
  | recreate
  /-- Nothing happens. -/
  | hold
  deriving DecidableEq, Repr

/-- COMPLETE is enabled exactly when `BUSY = 1` (R32, R162); otherwise the block holds its state (R276). -/
def State.completeIfEnabled (s : State) : Action := if s.busy then .complete else .hold

/-- Take the next stimulus off the schedule. With none left the block takes COMPLETE if it is enabled, which is the
weak fairness of R162 and R300, and else holds its state (log 12). -/
def State.fetch (s : State) : Action × State :=
  match s.queue with
  | [] => (s.completeIfEnabled, s)
  | .present a w :: q => (.command w, { s with queue := q, agent := a })
  | .complete :: q => (s.completeIfEnabled, { s with queue := q })
  | .reconnect :: q => (.recreate, { s with queue := q })

end Sys2Proof.Machine
end

