-- ==== Sys2Proof/Machine/Control.lean ====
section
/-! DEFINITION. Control commands (44_control.md): RESET, RDCNT and illegal commands. -/

namespace Sys2Proof.Machine

/-- RESET (R240): the reset values of R41, then the response; a chunk in flight is discarded without one. -/
def execReset (s : State) : Host.Outcome State Fault Refusal :=
  .next (s.clear.respond (.reset .ok))

/-- The record of RDCNT (R241): the counter, or BAD_INDEX and 0. -/
def rdcntResponse (c : Counters) (n : Byte) : Response :=
  match c.index n with
  | some v => .rdcnt .ok v
  | none => .rdcnt .badIndex 0#32

/-- RDCNT `n` (R241). -/
def execRdcnt (n : Byte) (s : State) : Host.Outcome State Fault Refusal :=
  .next (s.respond (rdcntResponse s.cnt n))

/-- An illegal command (R242): its answer, and no effect. -/
def execIllegal (_w : Bytes) (s : State) : Host.Outcome State Fault Refusal :=
  .next (s.respond (.illegal .illegalCommand))

end Sys2Proof.Machine
end

