-- ==== Sys2Proof/Machine/Codec.lean ====
section
/-! DEFINITION. The COBS codec (40_codec.md): ENC, DEC, and the code-byte rows DELIM, RUN and FULL. DEC looks at the
class of the code byte it meets (30_encoding.md R82) and runs the same block operation as that row's meaning (log 8). -/

namespace Sys2Proof.Machine

/-- The loop of ENC (R120) over the data left: `out` so far, `link` the index in `out` of the open block's code byte,
`code` the literal bytes of the open block plus one. -/
def encLoop (out : Bytes) (link code : Nat) : Bytes → Bytes
  | [] => out.set link (BitVec.ofNat 8 code)
  | b :: d =>
    if b = 0x00#8 then
      encLoop (out.set link (BitVec.ofNat 8 code) ++ [0x00#8]) out.length 1 d
    else if code + 1 = Config.runMax + 1 then
      encLoop ((out ++ [b]).set link Config.codeFull ++ [0x00#8]) (out.length + 1) 1 d
    else
      encLoop (out ++ [b]) link (code + 1) d

/-- `ENC(d)` (R120): the encoded bytes, without a delimiter. -/
def cobsEnc (d : Bytes) : Bytes := encLoop [0x00#8] 0 1 d

/-- The loop of DEC (R130) over the input left: `code` the current block's code byte, `left` its literal bytes still to
copy. The stop tests come before the implicit zero (R131). -/
def decLoop (code left : Nat) : Bytes → Bytes × Bool
  | [] => ([], decide (0 < left))
  | b :: t =>
    if 0 < left then
      let r := decLoop code (left - 1) t
      (b :: r.1, r.2)
    else if b = 0x00#8 then ([], false)
    else
      let r := decLoop b.toNat (b.toNat - 1) t
      if code = 255 then r else (0x00#8 :: r.1, r.2)

/-- DELIM (R82, R130): a literal 0x00 at a block boundary ends decoding; the bytes after it are ignored (R134). -/
def decDelim (_rest : Bytes) : Bytes × Bool := ([], false)

/-- RUN (R82, R130): `c - 1` literal bytes, then one implicit 0x00 if another block follows, and the rest. -/
def decRun (c : Byte) (rest : Bytes) : Bytes × Bool := decLoop c.toNat (c.toNat - 1) rest

/-- FULL (R82, R130): 254 literal bytes, no implicit 0x00, and the rest. -/
def decFull (rest : Bytes) : Bytes × Bool := decLoop 255 Config.runMax rest

/-- `DEC(s)` (R130): the decoded bytes, and whether the input ended inside a block (R132). -/
def cobsDec : Bytes → Bytes × Bool
  | [] => ([], false)
  | c :: rest =>
    match codeClass c with
    | .delim => decDelim rest
    | .run => decRun c rest
    | .full => decFull rest

/-- The record DEC answers with (R85). -/
def decResponse (r : Bytes × Bool) : Response := .dec r.1 r.2

/-- ENC `d` (R120). -/
def execEnc (d : Bytes) (s : State) : Host.Outcome State Fault Refusal :=
  .next (s.respond (.enc (cobsEnc d)))

/-- DEC `d` (R130). -/
def execDec (d : Bytes) (s : State) : Host.Outcome State Fault Refusal :=
  .next (s.respond (decResponse (cobsDec d)))

/-- The row DELIM: the decoder unit meets 0x00 where it expects a code byte. -/
def execDelim (rest : Bytes) (s : State) : Host.Outcome State Fault Refusal :=
  .next (s.respond (decResponse (decDelim rest)))

/-- The row RUN: the decoder unit meets a code byte 0x01..0xFE. -/
def execRun (c : Byte) (rest : Bytes) (s : State) : Host.Outcome State Fault Refusal :=
  .next (s.respond (decResponse (decRun c rest)))

/-- The row FULL: the decoder unit meets the code byte 0xFF. -/
def execFull (rest : Bytes) (s : State) : Host.Outcome State Fault Refusal :=
  .next (s.respond (decResponse (decFull rest)))

end Sys2Proof.Machine
end

