-- ==== Sys2Proof/Machine/Outbound.lean ====
section
/-! DEFINITION. The outbound frame builder (43_outbound.md): BUILD. -/

namespace Sys2Proof.Machine

/-- A frame on the wire (R80): the encoded kind byte and payload, and one delimiter. -/
def buildFrame (k : Byte) (p : Bytes) : Bytes := cobsEnc (k :: p) ++ [Config.delim]

/-- The record of BUILD (R220): a value of no kind is BAD_KIND and an empty frame (R221; `k > 0x04` under the reference
mapping, log 4). -/
def buildResponse (km : KindMap) (k : Byte) (p : Bytes) : Response :=
  match km.kindOf? k with
  | some _ => .build .ok (buildFrame k p)
  | none => .build .badKind []

/-- BUILD `k, p` (R220). -/
def execBuild (k : Byte) (p : Bytes) (s : State) : Host.Outcome State Fault Refusal :=
  .next (s.respond (buildResponse s.cfg.kindMap k p))

end Sys2Proof.Machine
end

