-- ==== Sys2Proof/Machine/Packet.lean ====
section
/-! DEFINITION. The discriminator (42_packet.md): DISC, and the kind-byte rows. -/

namespace Sys2Proof.Machine

/-- `discriminate(m)` (R202): the first byte names the kind, the rest is the payload; an empty message has no kind
(R204), and a byte that is no kind's value is unknown (R203). -/
def discriminate (km : KindMap) : Bytes → DiscResult
  | [] => .empty
  | k :: payload =>
    match km.kindOf? k with
    | some kind => .ok { kind := kind, payload := payload }
    | none => .unknown k

/-- DISC `m` (R201). -/
def execDisc (m : Bytes) (s : State) : Host.Outcome State Fault Refusal :=
  .next (s.respond (.disc (discriminate s.cfg.kindMap m)))

/-- The record the discriminator answers with when it meets a kind's byte (R202). -/
def kindResponse (kind : Kind) (payload : Bytes) : Response := .disc (.ok { kind := kind, payload := payload })

/-- The row KIND_LOG (R202). -/
def execKindLog (payload : Bytes) (s : State) : Host.Outcome State Fault Refusal :=
  .next (s.respond (kindResponse .log payload))

/-- The row KIND_VIDEO (R202). -/
def execKindVideo (payload : Bytes) (s : State) : Host.Outcome State Fault Refusal :=
  .next (s.respond (kindResponse .video payload))

/-- The row KIND_SOUND (R202). -/
def execKindSound (payload : Bytes) (s : State) : Host.Outcome State Fault Refusal :=
  .next (s.respond (kindResponse .sound payload))

/-- The row KIND_NETWORK (R202). -/
def execKindNetwork (payload : Bytes) (s : State) : Host.Outcome State Fault Refusal :=
  .next (s.respond (kindResponse .network payload))

/-- The row KIND_INPUT (R202). -/
def execKindInput (payload : Bytes) (s : State) : Host.Outcome State Fault Refusal :=
  .next (s.respond (kindResponse .input payload))

/-- The row KIND_UNKNOWN (R203): the byte is answered, the bytes after it are not read. -/
def execKindUnknown (k : Byte) (_rest : Bytes) (s : State) : Host.Outcome State Fault Refusal :=
  .next (s.respond (.disc (.unknown k)))

end Sys2Proof.Machine
end

