-- ==== Sys2Proof/Machine/Reassembler.lean ====
section
/-! DEFINITION. The frame reassembler (41_reassembler.md): CHUNK's ACCEPT (R161), which is what presenting the command
does, and the block's own step COMPLETE (R162) with PROCESS (R163). -/

namespace Sys2Proof.Machine

/-- What PROCESS has done: the state, the events raised in order, and the packet. -/
structure Processed where
  state  : State
  events : List Event
  packet : Option Packet
  deriving DecidableEq, Repr

/-- A processed chunk without a packet. -/
def Progress.noPacket (x : Progress) : Processed := { state := x.state, events := x.events, packet := none }

/-- FRAME_TO_PACKET (R168): truncation first, then emptiness, then the kind (R269). -/
def frameToPacket (x : Progress) (frame : Bytes) : Processed :=
  let r := cobsDec frame
  if r.2 then (x.raise .frameTruncated none).noPacket
  else
    match discriminate x.state.cfg.kindMap r.1 with
    | .ok p => { state := x.state, events := x.events, packet := some p }
    | .empty => (x.raise .frameEmpty none).noPacket
    | .unknown k => (x.raise .unknownKind (some k)).noPacket

/-- The overflow branch (R169): the event, and everything buffered is discarded. -/
def overflowed (x : Progress) : Progress :=
  let y := x.raise .overflow none
  { y with state := y.state.discard }

/-- The rest of a pass of PROCESS once the chunk fits (R163 to R168): append, scan, and either wait or extract the first
frame and move the remainder to index 0. -/
def absorb (x : Progress) (c : Bytes) : Except Fault Processed :=
  let s := x.state
  match memWriteRange s.cfg.cap s.mem s.wo c with
  | .error f => .error f
  | .ok m =>
    let fin := s.wo + c.length
    match bufFirstZero s.cfg.cap m s.sc (fin - s.sc) with
    | .error f => .error f
    | .ok none => .ok { state := { s with mem := m, wo := fin, sc := fin }, events := x.events, packet := none }
    | .ok (some i) =>
      match memReadRange s.cfg.cap m 0 i with
      | .error f => .error f
      | .ok frame =>
        match memReadRange s.cfg.cap m (i + 1) (fin - i - 1) with
        | .error f => .error f
        | .ok rem =>
          match memWriteRange s.cfg.cap m 0 rem with
          | .error f => .error f
          | .ok m' =>
            .ok (frameToPacket { x with state := { s with mem := m', wo := fin - i - 1, sc := 0 } } frame)

/-- PROCESS with `HUNT = 1` (R163, R170), by recursion on the chunk: bytes up to the next 0x00 are discarded; what
follows it is processed, and a second overflow hunts on through the same bytes. -/
def huntOn (x : Progress) : Bytes → Except Fault Processed
  | [] => .ok x.noPacket
  | b :: c =>
    if b = Config.delim then
      if x.state.cfg.cap < x.state.wo + c.length then huntOn (overflowed { x with state := x.state.endHunt }) c
      else absorb { x with state := x.state.endHunt } c
    else huntOn x c

/-- PROCESS (R163). The loop is written by recursion on the chunk (log 15). -/
def process (s : State) (c : Bytes) : Except Fault Processed :=
  let x : Progress := { state := s, events := [] }
  if s.hunt then huntOn x c
  else if s.cfg.cap < s.wo + c.length then huntOn (overflowed x) c
  else absorb x c

/-- CHUNK `c`: its step ACCEPT (R161). With a chunk in flight it is dropped, counted and answered at once; otherwise it is
latched and COMPLETE answers it. -/
def execChunk (c : Bytes) (s : State) : Host.Outcome State Fault Refusal :=
  if s.busy then
    let x : Progress := Progress.raise { state := s, events := [] } .busyDrop none
    .next (x.state.respond (.chunk none x.events))
  else .next (s.latch c)

/-- COMPLETE (R162), taken by step when it is enabled: process the latched chunk, clear the latch and BUSY, and answer
the agent whose CHUNK was accepted. -/
def complete (s : State) : Host.Outcome State Fault Refusal :=
  match process s s.pend with
  | .error f => .fault f
  | .ok p => .next (p.state.unlatch.deliverTo s.owner (.chunk p.packet p.events))

/-- PROCESS's loop as R163 writes it, pass by pass, with a bound on the passes (R173): `none` when the bound is used up.
Not run by the machine; the obligations compare `process` with it. -/
def processLoop : Nat → Progress → Bytes → Option (Except Fault Processed)
  | 0, _, _ => none
  | n + 1, x, c =>
    if x.state.hunt then
      match firstZero c with
      | none => some (.ok x.noPacket)
      | some k =>
        if x.state.cfg.cap < x.state.wo + (c.drop (k + 1)).length then
          processLoop n (overflowed { x with state := x.state.endHunt }) (c.drop (k + 1))
        else some (absorb { x with state := x.state.endHunt } (c.drop (k + 1)))
    else if x.state.cfg.cap < x.state.wo + c.length then processLoop n (overflowed x) c
    else some (absorb x c)

end Sys2Proof.Machine
end

