-- ==== Sys2Proof/Machine/Dispatch.lean ====
section
/-! DEFINITION. One arm per instruction. -/

namespace Sys2Proof.Machine

def exec (i : Instr) (s : State) : Host.Outcome State Fault Refusal :=
  match i with
  -- the command space (R84)
  | .chunk c => Sys2Proof.Machine.execChunk c s
  | .enc d => Sys2Proof.Machine.execEnc d s
  | .dec d => Sys2Proof.Machine.execDec d s
  | .disc m => Sys2Proof.Machine.execDisc m s
  | .build k p => Sys2Proof.Machine.execBuild k p s
  | .reset => Sys2Proof.Machine.execReset s
  | .rdcnt n => Sys2Proof.Machine.execRdcnt n s
  | .illegal w => Sys2Proof.Machine.execIllegal w s
  -- the code-byte space (R82)
  | .delim rest => Sys2Proof.Machine.execDelim rest s
  | .run c rest => Sys2Proof.Machine.execRun c rest s
  | .full rest => Sys2Proof.Machine.execFull rest s
  -- the kind-byte space (R83)
  | .kindLog payload => Sys2Proof.Machine.execKindLog payload s
  | .kindVideo payload => Sys2Proof.Machine.execKindVideo payload s
  | .kindSound payload => Sys2Proof.Machine.execKindSound payload s
  | .kindNetwork payload => Sys2Proof.Machine.execKindNetwork payload s
  | .kindInput payload => Sys2Proof.Machine.execKindInput payload s
  | .kindUnknown k rest => Sys2Proof.Machine.execKindUnknown k rest s

end Sys2Proof.Machine
end

