-- ==== Sys2Proof/Machine/Step.lean ====
section
/-! DEFINITION. One step of the block and its hosts (00_scope.md R9, R13; 20_memory.md R68): take what comes next off
the schedule and do it. -/

namespace Sys2Proof.Machine

/-- One step. It faults only where `complete` does and never refuses. -/
def step (s : State) : Host.Outcome State Fault Refusal :=
  match s.fetch with
  | (.command w, s') => exec (decode w) s'
  | (.complete, s') => complete s'
  | (.recreate, s') => .next s'.recreate
  | (.hold, s') => .next s'

/-- `s` with the transaction of an opcode-table word put first on the schedule, presented by the agent that last
presented one (log 11). -/
def State.withFetchWord (s : State) (nbits w : Nat) : State :=
  { s with queue := .present s.agent (tableTransaction nbits w) :: s.queue }

end Sys2Proof.Machine
end

