-- ==== Sys2Proof/Safety.lean ====
section
/-! DEFINITION. The terms statements use: the invariants of 10_state.md R38 and R39, what a step leaves unchanged, and
the schedules of one host that waits for each response. -/

namespace Sys2Proof.Machine

/-- The bytes `BUF[0..WO)` are `live` (R31, R37). -/
def State.Holds (s : State) (live : Bytes) : Prop := memReadRange s.cfg.cap s.mem 0 s.wo = .ok live

/-- R38 and R39 and what the model's own fields add: the parameters are legal (R10), `0 <= SC <= WO <= CAP` (R38), the
bytes below `SC` are non-zero (R39 a), hunting is done on an empty buffer (R39 b), no chunk is latched while `BUSY = 0`
(R39 c), the buffer is in canonical form and inside `0..CAP-1` (R37). -/
structure State.Inv (s : State) : Prop where
  cfg       : s.cfg.wf = true
  sc_le     : s.sc ≤ s.wo
  wo_le     : s.wo ≤ s.cfg.cap
  scanned   : ∀ j, j < s.sc → s.mem.read j ≠ 0x00#8
  hunting   : s.hunt = true → s.wo = 0 ∧ s.sc = 0
  idle      : s.busy = false → s.pend = [] ∧ s.owner = 0
  canonical : s.mem.wf
  inRange   : ∀ x ∈ s.mem, x.1 < s.cfg.cap

/-- No register and no byte of the block differs (R30), and the configuration and the schedule are the same: only the
deliveries and the agent numbers may differ. -/
structure SameBlock (s t : State) : Prop where
  cfg   : t.cfg = s.cfg
  mem   : t.mem = s.mem
  wo    : t.wo = s.wo
  sc    : t.sc = s.sc
  busy  : t.busy = s.busy
  hunt  : t.hunt = s.hunt
  pend  : t.pend = s.pend
  cnt   : t.cnt = s.cnt
  queue : t.queue = s.queue

/-- The empty, idle reassembler R175 and R222 start from. -/
structure State.Ready (s : State) : Prop where
  wo   : s.wo = 0
  sc   : s.sc = 0
  hunt : s.hunt = false
  busy : s.busy = false

/-- Host agent `a` presents the chunks in order, each after the response to the one before (R175). -/
def chunkSchedule (a : Nat) (chunks : List Bytes) : List Stimulus :=
  chunks.flatMap (fun c => [.present a (encode Config.reference (.chunk c)), .complete])

/-- A transaction that is neither CHUNK nor RESET: it changes no state (R42, R66). -/
def Quiet (w : Bytes) : Prop := decode w ≠ .reset ∧ ∀ c, decode w ≠ .chunk c

/-- One CHUNK of a host that waits for its response, and the transactions that any agents present before its ACCEPT
and between its ACCEPT and its COMPLETE (R160, R174). -/
structure Round where
  before  : List (Nat × Bytes)
  chunk   : Bytes
  between : List (Nat × Bytes)
  deriving DecidableEq, Repr

/-- The stimuli of a round in which host agent `a` presents the chunk. -/
def Round.schedule (a : Nat) (r : Round) : List Stimulus :=
  r.before.map (fun x => .present x.1 x.2) ++
    .present a (encode Config.reference (.chunk r.chunk)) ::
      (r.between.map (fun x => .present x.1 x.2) ++ [.complete])

/-- Whether a delivered response answers a CHUNK (R85). -/
def Delivery.ofChunk (d : Delivery) : Bool :=
  match d.response with
  | .chunk _ _ => true
  | _ => false

/-- How many events of a code a list holds. -/
def eventCount (e : EventCode) (evs : List Event) : Nat := (evs.filter (fun v => decide (v.code = e))).length

/-- No byte of a sequence is 0x00 (R81). -/
def ZeroFree (d : Bytes) : Prop := ∀ b ∈ d, b ≠ 0x00#8

/-- The bytes of one block: its code byte, one more than its literals, and the literals (R82, R89). -/
def blockBytes (lits : Bytes) : Bytes := BitVec.ofNat 8 (lits.length + 1) :: lits

/-- What a block contributes to the decoded data when another block follows: its literals, and an implicit zero unless
it is full (R82). -/
def blockThen (lits : Bytes) : Bytes := if lits.length = 254 then lits else lits ++ [0x00#8]

/-- The data a sequence of blocks stands for: the last block adds no implicit zero (R82, R131). -/
def blocksData : List Bytes → Bytes
  | [] => []
  | [lits] => lits
  | lits :: more => blockThen lits ++ blocksData more

/-- `F(d)` of R90: the sum, over the maximal runs of non-zero bytes of `d`, of `floor(L / 254)`. The maximal runs are
the pieces between zero bytes; an empty piece adds 0. -/
def fullRuns (d : Bytes) : Nat := ((d.splitOn 0x00#8).map (fun run => run.length / 254)).sum

/-- Two states a host cannot tell apart by R74: they agree on everything but the bytes of `BUF` at or above `WO`. -/
structure SameBelowWo (s t : State) : Prop where
  rest  : t = { s with mem := t.mem }
  bytes : ∀ j, j < s.wo → t.mem.read j = s.mem.read j

end Sys2Proof.Machine
end

