-- ==== Sys2Proof/Certificates/Slice0/Obligations.lean ====
section
/-! DEFINITION. The statements for the provers. Each docstring names the rule of spec/ it formalises. `agent`, `owner`,
`queue`, `deliveries` and `cfg` are the model's own fields (logs 1, 2, 3, 13). -/

open Sys2Proof Sys2Proof.Machine

/-! ## Reset, invariants, the step -/

/-- R41: the value of every piece of state after reset. `BUF` may hold any byte values: a reset state with any other
contents agrees with this one on everything a host can observe (R74, `BytesAboveWoAreUnobservable`). -/
def Obligations.ResetGivesTheValuesOfR41 : Prop :=
  State.reset.wo = 0 ∧ State.reset.sc = 0 ∧ State.reset.busy = false ∧ State.reset.hunt = false ∧
  State.reset.pend = [] ∧ (∀ e, State.reset.cnt.get e = 0#32) ∧
  ∀ m : Memory, SameBelowWo State.reset { State.reset with mem := m }

/-- The invariants of R38 and R39 hold after reset, whatever `BUF` holds (R41 "any byte value"; the zeros of `State.reset`
are the model's choice, log 5). -/
def Obligations.InvariantHoldsAtReset : Prop :=
  State.reset.Inv ∧
  ∀ m : Memory, m.wf → (∀ x ∈ m, x.1 < State.reset.cfg.cap) → State.Inv { State.reset with mem := m }

/-- R38, R39: every step keeps `0 <= SC <= WO <= CAP`, the scanned bytes non-zero, hunting on an empty buffer and an empty
latch while idle (and the model's own clauses of `State.Inv`: canonical form, log 5; owner, log 13). -/
def Obligations.EveryStepKeepsTheInvariant : Prop :=
  ∀ s t : State, s.Inv → step s = .next t →
    t.Inv ∧ t.sc ≤ t.wo ∧ t.wo ≤ t.cfg.cap ∧ (∀ j, j < t.sc → t.mem.read j ≠ 0x00#8) ∧
    (t.hunt = true → t.wo = 0 ∧ t.sc = 0) ∧ (t.busy = false → t.pend = [])

/-- R62: no access of the block leaves `0..CAP-1`: from a state that meets the invariants no step faults, and none
refuses. -/
def Obligations.NoStepStopsUnderTheInvariant : Prop :=
  ∀ s : State, s.Inv → ∃ t, step s = .next t

/-- R87, R9: when the next stimulus is a presented transaction, the step is the meaning of the instruction it decodes to,
with the stimulus taken off the schedule and the presenting agent noted; `withFetchWord` puts exactly such a stimulus
first. -/
def Obligations.StepRunsTheDecodedCommand : Prop :=
  (∀ (s : State) (a : Nat) (w : Bytes) (q : List Stimulus), s.queue = .present a w :: q →
    step s = exec (decode w) { s with queue := q, agent := a }) ∧
  (∀ (s : State) (n w : Nat), step (s.withFetchWord n w) = exec (decode (tableTransaction n w)) s) ∧
  (∀ n w : Nat, decodeTableWord n w = some (decode (tableTransaction n w)))

/-- R32, R162, R276: COMPLETE is taken exactly when `BUSY = 1` and the schedule asks for it or is empty (weak fairness,
R300; log 12); otherwise the block holds its state. -/
def Obligations.CompleteIsEnabledExactlyWhenBusy : Prop :=
  (∀ (s : State) (q : List Stimulus), s.queue = .complete :: q → s.busy = true →
    step s = complete { s with queue := q }) ∧
  (∀ (s : State) (q : List Stimulus), s.queue = .complete :: q → s.busy = false →
    step s = .next { s with queue := q }) ∧
  (∀ s : State, s.queue = [] → s.busy = true → step s = complete s) ∧
  (∀ s : State, s.queue = [] → s.busy = false → step s = .next s)

/-- R290 (a), R292: teardown and creation discard the instance, a chunk in flight and the buffered bytes included, with
no response, and give the register values of R41 in the same configuration. The rest of the equality is the model's
choice: the zeros in `BUF`, which R41 leaves unspecified (log 5), `agent` and `owner` at 0 (logs 13, 14), and the host's
schedule and the delivered responses kept (log 14). -/
def Obligations.ReconnectCreatesAFreshInstance : Prop :=
  ∀ (s : State) (q : List Stimulus), s.queue = .reconnect :: q →
    step s = .next { State.reset with cfg := s.cfg, queue := q, deliveries := s.deliveries }

/-- R10: "no command changes it": no step changes the configuration. -/
def Obligations.NoStepChangesTheConfiguration : Prop :=
  ∀ s t : State, step s = .next t → t.cfg = s.cfg

/-- R31: `WO` and `SC` fit in `OFS_W` bits, the smallest width with `2^w > CAP`, 17 for the reference capacity. -/
def Obligations.OffsetsFitTheirWidth : Prop :=
  (∀ s : State, s.Inv → s.wo < 2 ^ s.cfg.ofsW ∧ s.sc < 2 ^ s.cfg.ofsW) ∧
  (∀ cfg : Config, 1 ≤ cfg.cap → ∀ w, cfg.cap < 2 ^ w ↔ cfg.ofsW ≤ w) ∧
  Config.reference.ofsW = 17

/-! ## Decoding -/

/-- spec/opcode_table.json: within each space every byte matches exactly one row, and the decoder of that space gives that
row's instruction (at the reference `KIND_MAP`; a command row with the zero operand bytes its format requires, log 10). -/
def Obligations.TableRowsPartitionTheBytes : Prop :=
  (∀ b : Byte, rowsOf .command b = [(decode (tableTransaction 8 b.toNat)).mnemonic]) ∧
  (∀ b : Byte, (decodeCode [b]).map (fun i => [i.mnemonic]) = some (rowsOf .codeByte b)) ∧
  (∀ b : Byte, (decodeKind KindMap.reference [b]).map (fun i => [i.mnemonic]) = some (rowsOf .kindByte b))

/-- R84, R86: words written out from the encoding tables decode to the commands they stand for. -/
def Obligations.WrittenWordsDecodeToTheirCommands : Prop :=
  decode [0x01#8, 0x02#8, 0x05#8, 0x00#8] = .chunk [0x02#8, 0x05#8, 0x00#8] ∧
  decode [0x02#8, 0x11#8, 0x00#8] = .enc [0x11#8, 0x00#8] ∧
  decode [0x03#8, 0x01#8, 0x01#8] = .dec [0x01#8, 0x01#8] ∧
  decode [0x04#8, 0x01#8, 0xFF#8, 0xD8#8] = .disc [0x01#8, 0xFF#8, 0xD8#8] ∧
  decode [0x05#8, 0x00#8, 0x48#8, 0x69#8] = .build 0x00#8 [0x48#8, 0x69#8] ∧
  decode [0x06#8, 0xAA#8] = .reset ∧
  decode [0x07#8, 0x04#8] = .rdcnt 0x04#8 ∧
  decode [0x09#8] = .illegal [0x09#8] ∧
  decodeCode [0x03#8, 0x11#8, 0x22#8] = some (.run 0x03#8 [0x11#8, 0x22#8]) ∧
  decodeKind KindMap.reference [0x04#8, 0x81#8] = some (.kindInput [0x81#8])

/-- Decoding the encoding of a well-formed instruction, in its space, gives it back with every operand. -/
def Obligations.DecodeInvertsEncode : Prop :=
  ∀ (cfg : Config) (i : Instr), cfg.wf = true → i.wellFormed cfg = true →
    decodeIn cfg i.space (encode cfg i) = some i

/-- What a decoder gives is well-formed and encodes to the bytes it was read from; RESET alone drops bytes, those after its
opcode (R242). -/
def Obligations.EncodeInvertsDecode : Prop :=
  (∀ (cfg : Config) (w : Bytes), (decode w).wellFormed cfg = true ∧
    ((decode w = .reset ∧ ∃ rest, w = 0x06#8 :: rest) ∨ (decode w ≠ .reset ∧ encode cfg (decode w) = w))) ∧
  (∀ (cfg : Config) (w : Bytes) (i : Instr), decodeCode w = some i →
    i.wellFormed cfg = true ∧ encode cfg i = w) ∧
  (∀ (cfg : Config) (w : Bytes) (i : Instr), decodeKind cfg.kindMap w = some i →
    i.wellFormed cfg = true ∧ encode cfg i = w)

/-- R242: which transactions are illegal, what they answer, and that they change no state and no counter; RESET ignores
the bytes after its opcode. -/
def Obligations.IllegalCommandsAnswerAndChangeNothing : Prop :=
  (∀ w : Bytes, decode w = .illegal w ↔
    w = [] ∨ (∃ op rest, w = op :: rest ∧ (op = 0x00#8 ∨ 0x08#8 ≤ op)) ∨ w = [0x05#8] ∨
    (∃ rest, w = 0x07#8 :: rest ∧ rest.length ≠ 1)) ∧
  (∀ w : Bytes, (illegalCause w).isSome = true ↔ decode w = .illegal w) ∧
  (∀ (w : Bytes) (s : State), exec (.illegal w) s
    = .next { s with deliveries := s.deliveries ++ [⟨s.agent, .illegal .illegalCommand⟩] }) ∧
  (∀ rest : Bytes, decode (0x06#8 :: rest) = .reset)

/-! ## The codec -/

/-- R120, R82, R89: ENC answers, in every state, blocks of at most 254 non-zero literal bytes, each behind its code byte,
which stand for the data; nothing else changes. -/
def Obligations.EncAnswersTheBlocksOfItsData : Prop :=
  ∀ (d : Bytes) (s : State), ∃ blocks : List Bytes, blocks ≠ [] ∧ blocksData blocks = d ∧
    (∀ lits ∈ blocks, lits.length ≤ 254 ∧ ZeroFree lits) ∧
    exec (.enc d) s
      = .next { s with deliveries := s.deliveries ++ [⟨s.agent, .enc (blocks.flatMap blockBytes)⟩] }

/-- R121: code bytes are 0x01 to 0xFF, literals are non-zero bytes of the data, no 0x00 in the output, the exact length and
its bound, and no two data have one encoding. -/
def Obligations.EncodingHasThePropertiesOfR121 : Prop :=
  ∀ d : Bytes,
    (∃ blocks : List Bytes, cobsEnc d = blocks.flatMap blockBytes ∧
      (∀ lits ∈ blocks, 1 ≤ lits.length + 1 ∧ lits.length + 1 ≤ 255 ∧ ∀ b ∈ lits, b ≠ 0x00#8 ∧ b ∈ d)) ∧
    ZeroFree (cobsEnc d) ∧
    (cobsEnc d).length = d.length + 1 + fullRuns d ∧
    (cobsEnc d).length ≤ 1 + (d.length * 255 + 253) / 254 ∧
    ∀ d' : Bytes, cobsEnc d' = cobsEnc d → d' = d

/-- R90: the encoded length, its bound, and the length of a BUILD frame. -/
def Obligations.EncodedAndFrameLengthsAreExact : Prop :=
  (∀ d : Bytes, (cobsEnc d).length = d.length + 1 + fullRuns d ∧
    (cobsEnc d).length ≤ 1 + (d.length * 255 + 253) / 254) ∧
  (∀ (k : Byte) (p : Bytes), (buildFrame k p).length = p.length + 3 + fullRuns (k :: p))

/-- R122: when the 254th byte of a full block is the last of the data, which is so when the last run of non-zero bytes has
a positive multiple of 254 bytes (254, 508, 762, ...), the output ends with the block and one empty block. -/
def Obligations.EncEndsAFullRunWithAnEmptyBlock : Prop :=
  ∀ p run : Bytes, (p = [] ∨ p.getLast? = some 0x00#8) → run ≠ [] → 254 ∣ run.length → ZeroFree run →
    ∃ before, cobsEnc (p ++ run) = before ++ 0xFF#8 :: (run.drop (run.length - 254) ++ [0x01#8])

/-- R130, R131, R134: DEC (opcode 0x03) by the block it begins with: exhausted input, a literal 0x00, a block with all its literals (of
any value), a block cut short. The four cases cover every input and determine DEC. -/
def Obligations.DecReadsBlockByBlock : Prop :=
  (∀ w : Bytes, decode (0x03#8 :: w) = .dec w) ∧
  ∀ s : State,
    exec (.dec []) s = .next { s with deliveries := s.deliveries ++ [⟨s.agent, .dec [] false⟩] } ∧
    (∀ rest, exec (.dec (0x00#8 :: rest)) s
      = .next { s with deliveries := s.deliveries ++ [⟨s.agent, .dec [] false⟩] }) ∧
    (∀ (c : Byte) (short : Bytes), short.length + 1 < c.toNat →
      exec (.dec (c :: short)) s
        = .next { s with deliveries := s.deliveries ++ [⟨s.agent, .dec short true⟩] }) ∧
    (∀ (c : Byte) (lits rest : Bytes), lits.length + 1 = c.toNat →
      exec (.dec (c :: (lits ++ rest))) s = .next { s with deliveries := s.deliveries ++ [⟨s.agent,
        if rest = [] ∨ rest.head? = some 0x00#8 then .dec lits false
        else .dec (lits ++ ((if c = 0xFF#8 then [] else [0x00#8]) ++ (cobsDec rest).1)) (cobsDec rest).2⟩] })

/-- R132: `truncated` exactly when the input ends inside a block, and the output is then everything decoded before the
end. -/
def Obligations.DecIsTruncatedExactlyInsideABlock : Prop :=
  ∀ s out : Bytes, cobsDec s = (out, true) ↔
    ∃ (blocks : List Bytes) (c : Byte) (short : Bytes), (∀ lits ∈ blocks, lits.length ≤ 254) ∧
      short.length + 1 < c.toNat ∧ s = blocks.flatMap blockBytes ++ c :: short ∧
      out = blocks.flatMap blockThen ++ short

/-- R133: DEC inverts ENC on all data, and on the variant without the trailing 0x01 of R122, for data whose last run of
non-zero bytes has a positive multiple of 254 bytes. -/
def Obligations.DecInvertsEnc : Prop :=
  (∀ (d : Bytes) (s : State), exec (.dec (cobsEnc d)) s
    = .next { s with deliveries := s.deliveries ++ [⟨s.agent, .dec d false⟩] }) ∧
  (∀ (p run : Bytes) (s : State), (p = [] ∨ p.getLast? = some 0x00#8) → run ≠ [] → 254 ∣ run.length → ZeroFree run →
    exec (.dec (cobsEnc (p ++ run)).dropLast) s
      = .next { s with deliveries := s.deliveries ++ [⟨s.agent, .dec (p ++ run) false⟩] })

/-- R82, for the rows DELIM, RUN and FULL: what the decoder unit answers when it meets such a byte, in every state; DEC of
the same bytes answers the same (the answer's form is the model's choice, log 8). -/
def Obligations.CodeByteRowsDecodeTheirBlock : Prop :=
  ∀ s : State,
    (∀ rest, exec (.delim rest) s
      = .next { s with deliveries := s.deliveries ++ [⟨s.agent, .dec [] false⟩] }) ∧
    (∀ (c : Byte) (lits rest : Bytes), 0x01#8 ≤ c → c ≤ 0xFE#8 → lits.length + 1 = c.toNat →
      exec (.run c (lits ++ rest)) s = .next { s with deliveries := s.deliveries ++ [⟨s.agent,
        if rest = [] ∨ rest.head? = some 0x00#8 then .dec lits false
        else .dec (lits ++ 0x00#8 :: (cobsDec rest).1) (cobsDec rest).2⟩] }) ∧
    (∀ (c : Byte) (short : Bytes), 0x01#8 ≤ c → c ≤ 0xFE#8 → short.length + 1 < c.toNat →
      exec (.run c short) s
        = .next { s with deliveries := s.deliveries ++ [⟨s.agent, .dec short true⟩] }) ∧
    (∀ lits rest : Bytes, lits.length = 254 →
      exec (.full (lits ++ rest)) s = .next { s with deliveries := s.deliveries ++ [⟨s.agent,
        if rest = [] ∨ rest.head? = some 0x00#8 then .dec lits false
        else .dec (lits ++ (cobsDec rest).1) (cobsDec rest).2⟩] }) ∧
    (∀ short : Bytes, short.length < 254 →
      exec (.full short) s
        = .next { s with deliveries := s.deliveries ++ [⟨s.agent, .dec short true⟩] }) ∧
    (∀ (cfg : Config) (i : Instr), i.space = .codeByte → i.wellFormed cfg = true →
      exec i s = exec (.dec (encode cfg i)) s)

/-! ## The discriminator and the builder -/

/-- R202, at the reference mapping: DISC answers the kind its first byte names with the rest as payload, `empty` for the
empty message and `unknown` for 0x05 to 0xFF. -/
def Obligations.DiscAnswersTheKindOfTheFirstByte : Prop :=
  ∀ s : State, s.cfg.kindMap = KindMap.reference →
    exec (.disc []) s = .next { s with deliveries := s.deliveries ++ [⟨s.agent, .disc .empty⟩] } ∧
    (∀ p, exec (.disc (0x00#8 :: p)) s
      = .next { s with deliveries := s.deliveries ++ [⟨s.agent, .disc (.ok ⟨.log, p⟩)⟩] }) ∧
    (∀ p, exec (.disc (0x01#8 :: p)) s
      = .next { s with deliveries := s.deliveries ++ [⟨s.agent, .disc (.ok ⟨.video, p⟩)⟩] }) ∧
    (∀ p, exec (.disc (0x02#8 :: p)) s
      = .next { s with deliveries := s.deliveries ++ [⟨s.agent, .disc (.ok ⟨.sound, p⟩)⟩] }) ∧
    (∀ p, exec (.disc (0x03#8 :: p)) s
      = .next { s with deliveries := s.deliveries ++ [⟨s.agent, .disc (.ok ⟨.network, p⟩)⟩] }) ∧
    (∀ p, exec (.disc (0x04#8 :: p)) s
      = .next { s with deliveries := s.deliveries ++ [⟨s.agent, .disc (.ok ⟨.input, p⟩)⟩] }) ∧
    (∀ (k : Byte) (p : Bytes), 0x05#8 ≤ k → exec (.disc (k :: p)) s
      = .next { s with deliveries := s.deliveries ++ [⟨s.agent, .disc (.unknown k)⟩] })

/-- R202 under any legal `KIND_MAP` (R10, R83): the value of a kind names that kind, every other byte is unknown. -/
def Obligations.DiscFollowsTheKindMap : Prop :=
  ∀ s : State, s.cfg.wf = true →
    (∀ (kind : Kind) (p : Bytes), exec (.disc (s.cfg.kindMap.valueOf kind :: p)) s
      = .next { s with deliveries := s.deliveries ++ [⟨s.agent, .disc (.ok ⟨kind, p⟩)⟩] }) ∧
    (∀ (k : Byte) (p : Bytes), k ∉ s.cfg.kindMap.values → exec (.disc (k :: p)) s
      = .next { s with deliveries := s.deliveries ++ [⟨s.agent, .disc (.unknown k)⟩] })

/-- R202, R203, for the kind-byte rows: what the discriminator answers when it meets such a byte, in every state; DISC of
the same bytes answers the same in a state whose configuration gives them that meaning (the answer's form is the model's
choice, log 8). -/
def Obligations.KindByteRowsAnswerTheirPacket : Prop :=
  ∀ (s : State) (p : Bytes),
    exec (.kindLog p) s
      = .next { s with deliveries := s.deliveries ++ [⟨s.agent, .disc (.ok ⟨.log, p⟩)⟩] } ∧
    exec (.kindVideo p) s
      = .next { s with deliveries := s.deliveries ++ [⟨s.agent, .disc (.ok ⟨.video, p⟩)⟩] } ∧
    exec (.kindSound p) s
      = .next { s with deliveries := s.deliveries ++ [⟨s.agent, .disc (.ok ⟨.sound, p⟩)⟩] } ∧
    exec (.kindNetwork p) s
      = .next { s with deliveries := s.deliveries ++ [⟨s.agent, .disc (.ok ⟨.network, p⟩)⟩] } ∧
    exec (.kindInput p) s
      = .next { s with deliveries := s.deliveries ++ [⟨s.agent, .disc (.ok ⟨.input, p⟩)⟩] } ∧
    (∀ k, exec (.kindUnknown k p) s
      = .next { s with deliveries := s.deliveries ++ [⟨s.agent, .disc (.unknown k)⟩] }) ∧
    (∀ i : Instr, s.cfg.wf = true → i.space = .kindByte → i.wellFormed s.cfg = true →
      exec i s = exec (.disc (encode s.cfg i)) s)

/-- R205: the payload is the message without its first byte. -/
def Obligations.PayloadIsTheMessageAfterTheKindByte : Prop :=
  ∀ (km : KindMap) (m : Bytes) (p : Packet), discriminate km m = .ok p →
    p.payload.length = m.length - 1 ∧ p.payload = m.drop 1 ∧ m ≠ [] ∧ m.head? = some (km.valueOf p.kind)

/-- R220, R221, at the reference mapping: BUILD (opcode 0x05, then `k` and the payload) answers `ENC([k] ++ p) ++ [00]` for `k <= 0x04`, and BAD_KIND with an empty
frame above; no state and no counter changes. -/
def Obligations.BuildAnswersTheFrameOrBadKind : Prop :=
  (∀ (k : Byte) (p : Bytes), decode (0x05#8 :: k :: p) = .build k p) ∧
  ∀ (s : State) (k : Byte) (p : Bytes), s.cfg.kindMap = KindMap.reference →
    (k ≤ 0x04#8 → exec (.build k p) s
      = .next { s with deliveries := s.deliveries ++ [⟨s.agent, .build .ok (cobsEnc ([k] ++ p) ++ [0x00#8])⟩] }) ∧
    (0x04#8 < k → exec (.build k p) s
      = .next { s with deliveries := s.deliveries ++ [⟨s.agent, .build .badKind []⟩] })

/-- R80, R81: a built frame is the encoded kind byte and payload and one delimiter; the delimiter is its only 0x00. -/
def Obligations.BuiltFrameHasOneZeroItsLast : Prop :=
  ∀ (s : State) (k : Byte) (p : Bytes), k ∈ s.cfg.kindMap.values →
    ∃ e, ZeroFree e ∧ cobsDec e = (k :: p, false) ∧
      exec (.build k p) s
        = .next { s with deliveries := s.deliveries ++ [⟨s.agent, .build .ok (e ++ [0x00#8])⟩] }

/-- R40, R223: ENC, DEC, DISC and BUILD read and write none of the reassembler's state: two states with the same
configuration, agent and deliveries get the same response, whatever else differs, and keep what they had. -/
def Obligations.PureCommandsIgnoreTheReassembler : Prop :=
  ∀ (i : Instr) (s u : State), (∃ d, i = .enc d ∨ i = .dec d ∨ i = .disc d ∨ ∃ k, i = .build k d) →
    u.cfg = s.cfg → u.agent = s.agent →
    ∃ r : Response, exec i s = .next { s with deliveries := s.deliveries ++ [⟨s.agent, r⟩] } ∧
      exec i u = .next { u with deliveries := u.deliveries ++ [⟨s.agent, r⟩] }

/-! ## Control commands -/

/-- R240: RESET (opcode 0x06) writes the reset values, does not write BUF, answers OK and answers nothing else (a chunk in flight gets no
response), and COMPLETE is not enabled afterwards. -/
def Obligations.ResetClearsEverythingButTheBuffer : Prop :=
  (∀ rest : Bytes, decode (0x06#8 :: rest) = .reset) ∧
  ∀ s : State, ∃ t, exec .reset s = .next t ∧
    t.wo = 0 ∧ t.sc = 0 ∧ t.busy = false ∧ t.hunt = false ∧ t.pend = [] ∧ (∀ e, t.cnt.get e = 0#32) ∧
    t.mem = s.mem ∧ (∀ a, t.mem.read a = s.mem.read a) ∧ t.cfg = s.cfg ∧ t.queue = s.queue ∧
    t.deliveries = s.deliveries ++ [⟨s.agent, .reset .ok⟩] ∧
    ∀ q, step { t with queue := .complete :: q } = .next { t with queue := q }

/-- R241: RDCNT (opcode 0x07, then `n`) answers the counter of its index, BAD_INDEX and 0 above 4, and changes nothing. -/
def Obligations.RdcntAnswersTheIndexedCounter : Prop :=
  (∀ n : Byte, decode [0x07#8, n] = .rdcnt n) ∧
  ∀ s : State,
    exec (.rdcnt 0x00#8) s
      = .next { s with deliveries := s.deliveries ++ [⟨s.agent, .rdcnt .ok (s.cnt.get .busyDrop)⟩] } ∧
    exec (.rdcnt 0x01#8) s
      = .next { s with deliveries := s.deliveries ++ [⟨s.agent, .rdcnt .ok (s.cnt.get .overflow)⟩] } ∧
    exec (.rdcnt 0x02#8) s
      = .next { s with deliveries := s.deliveries ++ [⟨s.agent, .rdcnt .ok (s.cnt.get .frameTruncated)⟩] } ∧
    exec (.rdcnt 0x03#8) s
      = .next { s with deliveries := s.deliveries ++ [⟨s.agent, .rdcnt .ok (s.cnt.get .frameEmpty)⟩] } ∧
    exec (.rdcnt 0x04#8) s
      = .next { s with deliveries := s.deliveries ++ [⟨s.agent, .rdcnt .ok (s.cnt.get .unknownKind)⟩] } ∧
    (∀ n : Byte, 0x04#8 < n → exec (.rdcnt n) s
      = .next { s with deliveries := s.deliveries ++ [⟨s.agent, .rdcnt .badIndex 0#32⟩] })

/-- R66, R42: every instruction but CHUNK and RESET changes no state (the frame: every register, counter and byte of BUF as
before), and repeating it gives the same response again. The rules speak of commands; that a code-byte or kind-byte row on
its own delivers a response at all is the model's choice (log 8). -/
def Obligations.OtherCommandsAreIdempotentAndChangeNoState : Prop :=
  ∀ (i : Instr) (s : State), (∀ c, i ≠ .chunk c) → i ≠ .reset →
    ∃ (t u : State) (r : Response), exec i s = .next t ∧ exec i t = .next u ∧ SameBlock s t ∧ SameBlock t u ∧
      (∀ a, t.mem.read a = s.mem.read a) ∧ (∀ e, t.cnt.get e = s.cnt.get e) ∧
      t.agent = s.agent ∧ t.owner = s.owner ∧
      t.deliveries = s.deliveries ++ [⟨s.agent, r⟩] ∧ u.deliveries = t.deliveries ++ [⟨s.agent, r⟩]

/-- R85: each command gets exactly one response, to the agent that issued it, at its own step, but an accepted CHUNK, which
COMPLETE answers: exactly one response, to the agent whose CHUNK was accepted (R162). R85 speaks of commands; that a
code-byte or kind-byte row on its own delivers one response too is the model's choice (log 8). -/
def Obligations.EachCommandIsAnsweredOnce : Prop :=
  (∀ (i : Instr) (s t : State), exec i s = .next t →
    ((∃ c, i = .chunk c) ∧ s.busy = false ∧ t.deliveries = s.deliveries) ∨
    (¬ ((∃ c, i = .chunk c) ∧ s.busy = false) ∧ ∃ r, t.deliveries = s.deliveries ++ [⟨s.agent, r⟩])) ∧
  (∀ s t : State, complete s = .next t →
    ∃ p evs, t.deliveries = s.deliveries ++ [⟨s.owner, .chunk p evs⟩])

/-! ## CHUNK: ACCEPT -/

/-- R161, R174: ACCEPT with `BUSY = 0` latches the chunk and sets BUSY, with no response yet; with `BUSY = 1` it drops the
chunk, counts it and answers BUSY_DROP, and changes nothing else. -/
def Obligations.AcceptLatchesOrDropsTheChunk : Prop :=
  ∀ (c : Bytes) (s : State),
    (s.busy = false → exec (.chunk c) s = .next { s with busy := true, pend := c, owner := s.agent }) ∧
    (s.busy = true → ∃ t, exec (.chunk c) s = .next t ∧
      t.cnt.get .busyDrop = s.cnt.get .busyDrop + 1#32 ∧ (∀ e, e ≠ .busyDrop → t.cnt.get e = s.cnt.get e) ∧
      t.deliveries = s.deliveries ++ [⟨s.agent, .chunk none [⟨.busyDrop, none⟩]⟩] ∧
      (∀ a, t.mem.read a = s.mem.read a) ∧
      t = { s with cnt := t.cnt, deliveries := t.deliveries })

/-- R174: when one agent alone issues CHUNK, each after the response to the one before, none is dropped and each gets its
response, whatever other transactions but RESET any agents present in between, before an ACCEPT or before its COMPLETE
(R160); those are answered too. -/
def Obligations.AWaitingHostLosesNoChunk : Prop :=
  ∀ (s : State) (a : Nat) (rounds : List Round) (q : List Stimulus), s.Inv → s.busy = false →
    (∀ r ∈ rounds, ∀ x ∈ r.before ++ r.between, Quiet x.2) →
    s.queue = rounds.flatMap (Round.schedule a) ++ q →
    ∃ t, Sys2Proof.core.run (rounds.flatMap (Round.schedule a)).length s = .next t ∧ t.queue = q ∧ t.busy = false ∧
      t.cnt.get .busyDrop = s.cnt.get .busyDrop ∧
      ∃ (new : List Delivery) (answers : List (Option Packet × List Event)), t.deliveries = s.deliveries ++ new ∧
        new.filter Delivery.ofChunk = answers.map (fun x => ⟨a, .chunk x.1 x.2⟩) ∧
        answers.length = rounds.length ∧ (∀ x ∈ answers, eventCount .busyDrop x.2 = 0) ∧
        new.length + rounds.length = (rounds.flatMap (Round.schedule a)).length

/-! ## CHUNK: COMPLETE -/

/-- R166: a chunk that fits and completes no frame is appended, `WO` and `SC` advance to its end, and the answer is no
packet and no event; nothing else changes but the latch (R162). -/
def Obligations.CompleteBuffersAnUnfinishedFrame : Prop :=
  ∀ (s : State) (live : Bytes), s.Inv → s.busy = true → s.hunt = false → s.Holds live →
    s.wo + s.pend.length ≤ s.cfg.cap → ZeroFree (live ++ s.pend) →
    ∃ t, complete s = .next t ∧ t.wo = s.wo + s.pend.length ∧ t.sc = s.wo + s.pend.length ∧
      t.Holds (live ++ s.pend) ∧ t.deliveries = s.deliveries ++ [⟨s.owner, .chunk none []⟩] ∧
      t.busy = false ∧ t.pend = [] ∧ t.hunt = false ∧ t.cnt = s.cnt ∧ t.cfg = s.cfg ∧ t.queue = s.queue ∧
      t.agent = s.agent

/-- R167, R168: the first delimiter in the buffered bytes and the chunk ends the frame before it; the remainder is kept
from index 0, `SC` is 0, and the frame's decoding gives a packet or exactly one event, which is counted. -/
def Obligations.CompleteExtractsTheFirstFrame : Prop :=
  ∀ (s : State) (live frame rem : Bytes), s.Inv → s.busy = true → s.hunt = false → s.Holds live →
    s.wo + s.pend.length ≤ s.cfg.cap → live ++ s.pend = frame ++ 0x00#8 :: rem → ZeroFree frame →
    ∃ t p evs, complete s = .next t ∧ t.wo = rem.length ∧ t.sc = 0 ∧ t.Holds rem ∧
      t.deliveries = s.deliveries ++ [⟨s.owner, .chunk p evs⟩] ∧
      t.busy = false ∧ t.pend = [] ∧ t.hunt = false ∧ t.cfg = s.cfg ∧ t.queue = s.queue ∧ t.agent = s.agent ∧
      (∀ e, t.cnt.get e = s.cnt.get e + BitVec.ofNat 32 (eventCount e evs)) ∧
      ((cobsDec frame).2 = true → p = none ∧ evs = [⟨.frameTruncated, none⟩]) ∧
      ((cobsDec frame).2 = false → (cobsDec frame).1 = [] → p = none ∧ evs = [⟨.frameEmpty, none⟩]) ∧
      (∀ k m, cobsDec frame = (k :: m, false) →
        (∀ kind, s.cfg.kindMap.kindOf? k = some kind → p = some ⟨kind, m⟩ ∧ evs = []) ∧
        (s.cfg.kindMap.kindOf? k = none → p = none ∧ evs = [⟨.unknownKind, some k⟩]))

/-- R169: a chunk that would pass CAP raises OVERFLOW once and counts it, discards all that is buffered, and the same chunk
is hunted through: COMPLETE does what it does from the emptied, hunting state, with that event in front. -/
def Obligations.OverflowDiscardsAndHuntsThroughTheChunk : Prop :=
  ∀ s : State, s.hunt = false → s.cfg.cap < s.wo + s.pend.length →
    ∃ (u : State) (p : Option Packet) (evs : List Event),
      complete { s with wo := 0, sc := 0, hunt := true, cnt := s.cnt.incr .overflow }
        = .next { u with deliveries := s.deliveries ++ [⟨s.owner, .chunk p evs⟩] } ∧
      complete s = .next { u with deliveries := s.deliveries ++ [⟨s.owner, .chunk p (⟨.overflow, none⟩ :: evs)⟩] }

/-- R170: while `HUNT = 1` a chunk without 0x00 is discarded whole and answered with no packet and no event; a chunk with
one is discarded up to and including the first, HUNT is cleared, and the rest is processed as a chunk. -/
def Obligations.HuntDiscardsThroughTheNextDelimiter : Prop :=
  (∀ s : State, s.hunt = true → ZeroFree s.pend →
    complete s = .next { s with
      busy := false, pend := [], owner := 0, deliveries := s.deliveries ++ [⟨s.owner, .chunk none []⟩] }) ∧
  (∀ (s : State) (lost rest : Bytes), s.hunt = true → s.pend = lost ++ 0x00#8 :: rest → ZeroFree lost →
    complete s = complete { s with hunt := false, pend := rest })

/-- R172: an empty chunk appends nothing. It extracts the next frame of the remainder if there is one; otherwise, and while
hunting, it answers no packet and no event and changes no state, but that the scan of R163 leaves `SC` at `WO` (log 16). -/
def Obligations.EmptyChunkDrainsOneFrame : Prop :=
  ∀ (s : State) (live : Bytes), s.Inv → s.busy = true → s.pend = [] → s.Holds live →
    (s.hunt = true ∨ ZeroFree live →
      complete s = .next { s with
        sc := s.wo, busy := false, owner := 0, deliveries := s.deliveries ++ [⟨s.owner, .chunk none []⟩] }) ∧
    (∀ frame rem, live = frame ++ 0x00#8 :: rem → ZeroFree frame →
      ∃ t p evs, complete s = .next t ∧ t.wo = rem.length ∧ t.sc = 0 ∧ t.Holds rem ∧
        t.deliveries = s.deliveries ++ [⟨s.owner, .chunk p evs⟩] ∧
        ((p.isSome = true ∧ evs = []) ∨ (p = none ∧ evs.length = 1)))

/-- R163, R173: PROCESS as the model writes it is the loop R163 writes, and that loop needs at most `2 * len(c) + 2`
passes. -/
def Obligations.ProcessIsTheLoopOfR163 : Prop :=
  ∀ (s : State) (c : Bytes), processLoop (2 * c.length + 2) { state := s, events := [] } c = some (process s c)

/-- R165: the scan finds the least index at or after its start that holds 0x00, and depends on no byte below its start. -/
def Obligations.ScanFindsTheFirstZeroFromTheCursor : Prop :=
  ∀ (cap : Nat) (m : Memory) (a n : Nat),
    (∀ i, bufFirstZero cap m a n = .ok (some i) →
      a ≤ i ∧ i < a + n ∧ m.read i = 0x00#8 ∧ ∀ j, a ≤ j → j < i → m.read j ≠ 0x00#8) ∧
    (bufFirstZero cap m a n = .ok none → ∀ j, a ≤ j → j < a + n → m.read j ≠ 0x00#8) ∧
    (∀ m' : Memory, (∀ j, a ≤ j → j < a + n → m'.read j = m.read j) →
      bufFirstZero cap m' a n = bufFirstZero cap m a n)

/-- R269, R263, R264: a response's events are OVERFLOWs, then at most one event of the one frame; with a frame event there is
no packet; COMPLETE never answers BUSY_DROP. -/
def Obligations.EventsComeInTheOrderOfR269 : Prop :=
  ∀ s t : State, complete s = .next t →
    ∃ (p : Option Packet) (n : Nat) (last : List Event),
      t.deliveries = s.deliveries ++ [⟨s.owner, .chunk p (List.replicate n ⟨.overflow, none⟩ ++ last)⟩] ∧
      (last = [] ∨ (p = none ∧ (last = [⟨.frameTruncated, none⟩] ∨ last = [⟨.frameEmpty, none⟩] ∨
        ∃ k, last = [⟨.unknownKind, some k⟩])))

/-- R169: with `HUNT = 0`, COMPLETE raises OVERFLOW exactly when `WO + len(c) > CAP`; a chunk that fills the buffer to
exactly CAP does not. -/
def Obligations.OverflowExactlyWhenTheChunkPassesCap : Prop :=
  ∀ s : State, s.Inv → s.hunt = false →
    ∃ t p evs, complete s = .next t ∧ t.deliveries = s.deliveries ++ [⟨s.owner, .chunk p evs⟩] ∧
      ((⟨.overflow, none⟩ : Event) ∈ evs ↔ s.cfg.cap < s.wo + s.pend.length)

/-- R36, R262: over COMPLETE and over a dropped CHUNK every counter grows, modulo `2^32`, by the number of its events in
the response; over an accepted CHUNK, which has no response yet, none changes. -/
def Obligations.CountersCountTheEventsOfTheResponse : Prop :=
  (∀ s t : State, complete s = .next t → ∃ p evs, t.deliveries = s.deliveries ++ [⟨s.owner, .chunk p evs⟩] ∧
    ∀ e, t.cnt.get e = s.cnt.get e + BitVec.ofNat 32 (eventCount e evs)) ∧
  (∀ (c : Bytes) (s : State), s.busy = true → ∃ t evs, exec (.chunk c) s = .next t ∧
    t.deliveries = s.deliveries ++ [⟨s.agent, .chunk none evs⟩] ∧
    ∀ e, t.cnt.get e = s.cnt.get e + BitVec.ofNat 32 (eventCount e evs)) ∧
  (∀ (c : Bytes) (s : State), s.busy = false → ∃ t, exec (.chunk c) s = .next t ∧
    t.deliveries = s.deliveries ∧ ∀ e, t.cnt.get e = s.cnt.get e)

/-- R42, R63: what COMPLETE leaves unchanged: the configuration, the schedule, the agent, counter 0 and, in BUF, every byte
outside the ones it stores: the chunk at `WO..WO+len(c)-1` and the remainder at `0..WO'-1`; after an overflow, less than
`len(c)` bytes from index 0; while hunting with no delimiter, none. -/
def Obligations.CompleteFrame : Prop :=
  ∀ s t : State, complete s = .next t →
    t.cfg = s.cfg ∧ t.queue = s.queue ∧ t.agent = s.agent ∧ t.cnt.get .busyDrop = s.cnt.get .busyDrop ∧
    t.busy = false ∧ t.pend = [] ∧
    (∀ a, s.wo + s.pend.length ≤ a → t.wo ≤ a → t.mem.read a = s.mem.read a) ∧
    (s.hunt = false → s.wo + s.pend.length ≤ s.cfg.cap →
      ∀ a, (a < s.wo ∨ s.wo + s.pend.length ≤ a) → t.wo ≤ a → t.mem.read a = s.mem.read a) ∧
    (s.hunt = false → s.cfg.cap < s.wo + s.pend.length →
      ∀ a, s.pend.length ≤ a → t.mem.read a = s.mem.read a) ∧
    (s.hunt = true → ZeroFree s.pend → ∀ a, t.mem.read a = s.mem.read a)

/-- R74: the bytes of BUF at or above WO cannot be observed: two states that agree on everything else take the same steps
with the same responses, and agree again afterwards. -/
def Obligations.BytesAboveWoAreUnobservable : Prop :=
  ∀ s t : State, s.Inv → SameBelowWo s t →
    ∃ s' t', step s = .next s' ∧ step t = .next t' ∧ SameBelowWo s' t'

/-- R162, R300: with no more stimuli a chunk in flight is completed at the next step, and its owner is answered. -/
def Obligations.AnInFlightChunkIsCompletedWhenHostsRest : Prop :=
  ∀ s : State, s.Inv → s.queue = [] → s.busy = true →
    ∃ t p evs, step s = .next t ∧ t.busy = false ∧ t.queue = [] ∧
      t.deliveries = s.deliveries ++ [⟨s.owner, .chunk p evs⟩]

/-! ## Streams -/

/-- R175: an encoded part and its delimiter, split into chunks of which the last is not empty (so that it holds the
delimiter, as the rule's own reason says: "only `ck` holds a 0x00, at its end"), each presented after the response to the
one before, gives no packet and no event until the last chunk, whose response is the one the single chunk gets; both runs
end with `WO = 0` and `SC = 0`. -/
def Obligations.FragmentationDoesNotChangeTheAnswer : Prop :=
  ∀ (s : State) (a : Nat) (e : Bytes) (init : List Bytes) (last : Bytes) (q : List Stimulus),
    s.Ready → ZeroFree e → e.length + 1 ≤ s.cfg.cap → (init ++ [last]).flatten = e ++ [0x00#8] → last ≠ [] →
    ∃ t u p evs,
      Sys2Proof.core.run (2 * (init.length + 1)) { s with queue := chunkSchedule a (init ++ [last]) ++ q } = .next t ∧
      Sys2Proof.core.run 2 { s with queue := chunkSchedule a [e ++ [0x00#8]] ++ q } = .next u ∧
      t.deliveries = s.deliveries ++ List.replicate init.length ⟨a, .chunk none []⟩ ++ [⟨a, .chunk p evs⟩] ∧
      u.deliveries = s.deliveries ++ [⟨a, .chunk p evs⟩] ∧
      t.wo = 0 ∧ t.sc = 0 ∧ u.wo = 0 ∧ u.sc = 0

/-- R222: a built frame fed through CHUNK, whole or split (the last chunk not empty, as in R175), gives back its kind and
payload, with no events, and leaves `WO = 0` and `SC = 0`. -/
def Obligations.BuiltFrameLoopsBack : Prop :=
  ∀ (s : State) (a : Nat) (kind : Kind) (p : Bytes) (init : List Bytes) (last : Bytes) (q : List Stimulus),
    s.Ready → s.cfg.wf = true → (buildFrame (s.cfg.kindMap.valueOf kind) p).length ≤ s.cfg.cap →
    (init ++ [last]).flatten = buildFrame (s.cfg.kindMap.valueOf kind) p → last ≠ [] →
    s.queue = chunkSchedule a (init ++ [last]) ++ q →
    ∃ t, Sys2Proof.core.run (2 * (init.length + 1)) s = .next t ∧
      t.deliveries = s.deliveries ++ List.replicate init.length ⟨a, .chunk none []⟩
        ++ [⟨a, .chunk (some ⟨kind, p⟩) []⟩] ∧
      t.wo = 0 ∧ t.sc = 0 ∧ t.cnt = s.cnt ∧ t.hunt = false ∧ t.busy = false

/-- R171, R172, R294: frames that arrive in one chunk come out one per chunk, in order: the first with that chunk, the
others drained by as many empty chunks. -/
def Obligations.BacklogIsDrainedInOrder : Prop :=
  ∀ (s : State) (a : Nat) (first : Packet) (others : List Packet) (q : List Stimulus),
    s.Ready → s.cfg.wf = true →
    ((first :: others).flatMap (fun x => buildFrame (s.cfg.kindMap.valueOf x.kind) x.payload)).length ≤ s.cfg.cap →
    s.queue = chunkSchedule a
      ((first :: others).flatMap (fun x => buildFrame (s.cfg.kindMap.valueOf x.kind) x.payload) ::
        List.replicate others.length []) ++ q →
    ∃ t, Sys2Proof.core.run (2 * (others.length + 1)) s = .next t ∧
      t.deliveries = s.deliveries ++ (first :: others).map (fun x => ⟨a, .chunk (some x) []⟩) ∧
      t.wo = 0 ∧ t.sc = 0

/-- R34, R170: a hunting block that receives the rest of the lost frame and then a whole built frame in one chunk surfaces
that frame's packet and is in step again. -/
def Obligations.HuntingBlockResynchronisesAtTheDelimiter : Prop :=
  ∀ (s : State) (lost : Bytes) (kind : Kind) (p : Bytes), s.Inv → s.busy = true → s.hunt = true → ZeroFree lost →
    s.pend = lost ++ 0x00#8 :: buildFrame (s.cfg.kindMap.valueOf kind) p →
    (buildFrame (s.cfg.kindMap.valueOf kind) p).length ≤ s.cfg.cap →
    ∃ t, complete s = .next t ∧ t.deliveries = s.deliveries ++ [⟨s.owner, .chunk (some ⟨kind, p⟩) []⟩] ∧
      t.hunt = false ∧ t.wo = 0 ∧ t.sc = 0 ∧ t.cnt = s.cnt

/-! ## Codes -/

/-- R261, R268, R64: the event codes, the status values, and the little-endian bytes of a counter. -/
def Obligations.CodesAndCounterBytes : Prop :=
  EventCode.byte .busyDrop = 0x01#8 ∧ EventCode.byte .overflow = 0x02#8 ∧ EventCode.byte .frameTruncated = 0x03#8 ∧
  EventCode.byte .frameEmpty = 0x04#8 ∧ EventCode.byte .unknownKind = 0x05#8 ∧
  Status.byte .ok = 0x00#8 ∧ Status.byte .illegalCommand = 0x10#8 ∧ Status.byte .badKind = 0x11#8 ∧
  Status.byte .badIndex = 0x12#8 ∧
  ∀ v : Counter, ∃ b0 b1 b2 b3 : Byte, counterBytes v = [b0, b1, b2, b3] ∧
    v.toNat = b0.toNat + 256 * b1.toNat + 65536 * b2.toNat + 16777216 * b3.toNat

/-! ## The buffer's accesses -/

/-- R13, R37, R62: `MemRead` and `MemWrite` of one byte at every index below CAP, whatever has been written there, and
what a write leaves: every other byte, and the canonical form. At CAP and above both fault, as R62 allows a model (log 6). -/
def Obligations.BufferAccessesReadAndWriteOneByte : Prop :=
  ∀ (cap : Nat) (m : Memory) (a : Nat) (b : Byte),
    (a < cap → memRead cap m a = .ok (m.read a) ∧ ∃ m', memWrite cap m a b = .ok m' ∧ m'.read a = b ∧
      (∀ j, j ≠ a → m'.read j = m.read j) ∧
      (m.wf → m'.wf) ∧ ((∀ x ∈ m, x.1 < cap) → ∀ x ∈ m', x.1 < cap)) ∧
    (cap ≤ a → memRead cap m a = .error (.bufOutOfRange a) ∧ memWrite cap m a b = .error (.bufOutOfRange a))
end

