-- ==== Sys2Proof/Laws/Codec.lean ====
section
/-! SUPPORT. The codec by blocks: what the encoder's loop builds, and what the decoder's loop does with one block. -/

namespace Sys2Proof.Machine

/-- The blocks the encoder makes of `run ++ d` when `run` is in the open block. -/
def cobsBlocksFrom (run : Bytes) : Bytes → List Bytes
  | [] => [run]
  | b :: d =>
    if b = 0x00#8 then run :: cobsBlocksFrom [] d
    else if run.length + 1 = 254 then (run ++ [b]) :: cobsBlocksFrom [] d
    else cobsBlocksFrom (run ++ [b]) d

theorem encLoop_blocks (done run d : Bytes) (slot : Byte) (h : run.length < 254) :
    encLoop (done ++ slot :: run) done.length (run.length + 1) d
      = done ++ (cobsBlocksFrom run d).flatMap blockBytes := by
  induction d generalizing done run slot with
  | nil => simp [encLoop, cobsBlocksFrom, blockBytes]
  | cons b d ih =>
    have hset : ∀ c : Byte, (done ++ slot :: run).set done.length c = done ++ c :: run := fun c => by simp
    simp only [encLoop, cobsBlocksFrom]
    split
    · rw [hset]
      have := ih (done ++ BitVec.ofNat 8 (run.length + 1) :: run) [] 0x00#8 (by simp)
      simp only [List.length_append, List.length_cons, List.length_nil, Nat.zero_add] at this ⊢
      rw [this]; simp [blockBytes]
    · split
      · next _ hfull =>
        have hfull' : run.length + 1 = 254 := by have : run.length + 1 + 1 = 254 + 1 := hfull; omega
        rw [if_pos hfull']
        have hset2 : ((done ++ slot :: run) ++ [b]).set done.length Config.codeFull
            = done ++ Config.codeFull :: (run ++ [b]) := by simp
        rw [hset2]
        have := ih (done ++ Config.codeFull :: (run ++ [b])) [] 0x00#8 (by simp)
        simp only [List.length_append, List.length_cons, List.length_nil, Nat.zero_add] at this ⊢
        rw [show done.length + (run.length + 1) + 1 = done.length + (run.length + 1 + 1) by omega, this]
        simp [blockBytes, hfull']
      · next _ hfull =>
        have hfull' : ¬ run.length + 1 = 254 := by
          have : ¬ run.length + 1 + 1 = 254 + 1 := hfull
          omega
        rw [if_neg hfull']
        have := ih done (run ++ [b]) slot (by simp; omega)
        simp only [List.length_append, List.length_cons, List.length_nil] at this ⊢
        simpa using this

/-- ENC writes the blocks of its data one after another. -/
theorem cobsEnc_blocks (d : Bytes) : cobsEnc d = (cobsBlocksFrom [] d).flatMap blockBytes := by
  simpa [cobsEnc] using encLoop_blocks [] [] d 0x00#8 (by simp)

theorem cobsBlocksFrom_ne_nil (run d : Bytes) : cobsBlocksFrom run d ≠ [] := by
  induction d generalizing run with
  | nil => simp [cobsBlocksFrom]
  | cons b d ih =>
    simp only [cobsBlocksFrom]
    split
    · simp
    · split
      · simp
      · exact ih _

/-- Every block holds at most 254 literals, all of them non-zero bytes of the data. -/
theorem cobsBlocksFrom_block {run d lits : Bytes} (hr : run.length < 254) (hz : ∀ b ∈ run, b ≠ 0x00#8)
    (h : lits ∈ cobsBlocksFrom run d) :
    lits.length ≤ 254 ∧ ∀ b ∈ lits, b ≠ 0x00#8 ∧ (b ∈ run ∨ b ∈ d) := by
  induction d generalizing run with
  | nil =>
    simp only [cobsBlocksFrom, List.mem_singleton] at h
    subst h
    exact ⟨hr.le, fun b hb => ⟨hz b hb, .inl hb⟩⟩
  | cons b d ih =>
    simp only [cobsBlocksFrom] at h
    split at h
    · rcases List.mem_cons.1 h with rfl | h
      · exact ⟨hr.le, fun c hc => ⟨hz c hc, .inl hc⟩⟩
      · obtain ⟨h1, h2⟩ := ih (by simp) (by simp) h
        exact ⟨h1, fun c hc => ⟨(h2 c hc).1, .inr (by simpa using Or.inr (by simpa using (h2 c hc).2))⟩⟩
    · next hb =>
      have hz' : ∀ c ∈ run ++ [b], c ≠ 0x00#8 := by
        intro c hc
        rcases List.mem_append.1 hc with hc | hc
        · exact hz c hc
        · simpa [List.mem_singleton.1 hc] using hb
      split at h
      · next hl =>
        rcases List.mem_cons.1 h with rfl | h
        · refine ⟨by simp; omega, fun c hc => ⟨hz' c hc, ?_⟩⟩
          simp only [List.mem_append, List.mem_cons] at hc ⊢; tauto
        · obtain ⟨h1, h2⟩ := ih (by simp) (by simp) h
          exact ⟨h1, fun c hc => ⟨(h2 c hc).1, .inr (by simpa using Or.inr (by simpa using (h2 c hc).2))⟩⟩
      · next hl =>
        obtain ⟨h1, h2⟩ := ih (by simp; omega) hz' h
        refine ⟨h1, fun c hc => ⟨(h2 c hc).1, ?_⟩⟩
        have := (h2 c hc).2
        simp only [List.mem_append, List.mem_cons] at this ⊢; tauto

theorem blocksData_cons {lits : Bytes} {more : List Bytes} (h : more ≠ []) :
    blocksData (lits :: more) = blockThen lits ++ blocksData more := by
  cases more with
  | nil => exact absurd rfl h
  | cons => rfl

/-- The blocks stand for the data they were made of. -/
theorem blocksData_cobsBlocksFrom (run d : Bytes) (hr : run.length < 254) :
    blocksData (cobsBlocksFrom run d) = run ++ d := by
  induction d generalizing run with
  | nil => simp [cobsBlocksFrom, blocksData]
  | cons b d ih =>
    simp only [cobsBlocksFrom]
    split
    · next hb =>
      rw [blocksData_cons (cobsBlocksFrom_ne_nil _ _), ih [] (by simp), blockThen,
        if_neg (by omega), hb]; simp
    · split
      · next hl =>
        rw [blocksData_cons (cobsBlocksFrom_ne_nil _ _), ih [] (by simp), blockThen, if_pos (by simpa using hl)]; simp
      · next hl => rw [ih _ (by simp; omega)]; simp

/-- Literals of a block are copied verbatim, whatever they are (R134). -/
theorem decLoop_literals (code : Nat) (lits t : Bytes) :
    decLoop code lits.length (lits ++ t) = (lits ++ (decLoop code 0 t).1, (decLoop code 0 t).2) := by
  induction lits with
  | nil => simp
  | cons b lits ih => simp [decLoop, ih]

/-- An input that ends inside a block: every byte is copied, and it is truncated (R132). -/
theorem decLoop_short (code left : Nat) (short : Bytes) (h : short.length < left) :
    decLoop code left short = (short, true) := by
  induction short generalizing left with
  | nil => simp [decLoop]; simpa using h
  | cons b t ih =>
    simp only [List.length_cons] at h
    simp [decLoop, show 0 < left by omega, ih (left - 1) (by omega)]

/-- DEC at a code byte that is not 0x00. -/
theorem cobsDec_cons {c : Byte} (h : c ≠ 0x00#8) (t : Bytes) :
    cobsDec (c :: t) = decLoop c.toNat (c.toNat - 1) t := by
  simp only [cobsDec, codeClass, if_neg h]
  split
  · next hc => split at hc <;> cases hc
  · rfl
  · next hc =>
    split at hc
    · next hf => subst hf; rfl
    · cases hc

@[simp] theorem cobsDec_nil : cobsDec [] = ([], false) := rfl

theorem cobsDec_zero (t : Bytes) : cobsDec (0x00#8 :: t) = ([], false) := rfl

/-- A block boundary: stop, or an implicit zero unless the block was full, and the next block (R130, R131). -/
theorem decLoop_boundary (code : Nat) (t : Bytes) :
    decLoop code 0 t =
      if t = [] ∨ t.head? = some 0x00#8 then ([], false)
      else ((if code = 255 then [] else [0x00#8]) ++ (cobsDec t).1, (cobsDec t).2) := by
  cases t with
  | nil => simp [decLoop]
  | cons b t =>
    by_cases hb : b = 0x00#8
    · simp [decLoop, hb]
    · rw [cobsDec_cons hb]
      simp only [decLoop, Nat.lt_irrefl, if_false, if_neg hb, List.head?_cons, Option.some.injEq, reduceCtorEq,
        false_or]
      split <;> simp

/-- A code byte written from a number of literals. -/
theorem codeByte_toNat {lits : Bytes} (h : lits.length ≤ 254) :
    (BitVec.ofNat 8 (lits.length + 1)).toNat = lits.length + 1 := by
  simp; omega

theorem codeByte_ne_zero {lits : Bytes} (h : lits.length ≤ 254) : BitVec.ofNat 8 (lits.length + 1) ≠ 0x00#8 := by
  intro h0
  have := codeByte_toNat h
  rw [h0] at this; simp at this

/-- DEC of a whole block and what follows it. -/
theorem cobsDec_block {lits : Bytes} (h : lits.length ≤ 254) (t : Bytes) :
    cobsDec (blockBytes lits ++ t) =
      (lits ++ (decLoop (lits.length + 1) 0 t).1, (decLoop (lits.length + 1) 0 t).2) := by
  rw [blockBytes, List.cons_append, cobsDec_cons (codeByte_ne_zero h), codeByte_toNat h, Nat.add_sub_cancel,
    decLoop_literals]

/-- DEC of a block when another follows. -/
theorem cobsDec_block_then {lits : Bytes} (h : lits.length ≤ 254) {c : Byte} (hc : c ≠ 0x00#8) (t : Bytes) :
    cobsDec (blockBytes lits ++ c :: t) = (blockThen lits ++ (cobsDec (c :: t)).1, (cobsDec (c :: t)).2) := by
  rw [cobsDec_block h, decLoop_boundary, if_neg (by simp [hc])]
  simp only [blockThen]
  by_cases hl : lits.length = 254
  · simp [hl]
  · rw [if_neg (by omega), if_neg hl]; simp

/-- DEC of whole blocks, then a code byte and what follows it. -/
theorem cobsDec_blocks_then {blocks : List Bytes} (h : ∀ l ∈ blocks, l.length ≤ 254) {c : Byte} (hc : c ≠ 0x00#8)
    (t : Bytes) :
    cobsDec (blocks.flatMap blockBytes ++ c :: t)
      = (blocks.flatMap blockThen ++ (cobsDec (c :: t)).1, (cobsDec (c :: t)).2) := by
  induction blocks with
  | nil => simp
  | cons l more ih =>
    have hl := h l (by simp)
    have hm := ih (fun x hx => h x (by simp [hx]))
    simp only [List.flatMap_cons, List.append_assoc]
    cases more with
    | nil => simp only [List.flatMap_nil, List.nil_append]; exact cobsDec_block_then hl hc t
    | cons l2 more =>
      have h2 := codeByte_ne_zero (h l2 (by simp))
      have := cobsDec_block_then hl h2 (l2 ++ (more.flatMap blockBytes ++ c :: t))
      have e : (l2 :: more).flatMap blockBytes ++ c :: t
          = BitVec.ofNat 8 (l2.length + 1) :: (l2 ++ (more.flatMap blockBytes ++ c :: t)) := by
        simp [List.flatMap_cons, blockBytes]
      rw [e] at hm ⊢
      rw [this, hm]

/-- DEC of whole blocks gives the data they stand for. -/
theorem cobsDec_blocks {blocks : List Bytes} (h : ∀ l ∈ blocks, l.length ≤ 254) :
    cobsDec (blocks.flatMap blockBytes) = (blocksData blocks, false) := by
  induction blocks with
  | nil => rfl
  | cons l more ih =>
    have hl := h l (by simp)
    have hm := ih (fun x hx => h x (by simp [hx]))
    cases more with
    | nil =>
      have := cobsDec_block hl []
      simpa [decLoop, blocksData] using this
    | cons l2 more =>
      have h2 := codeByte_ne_zero (h l2 (by simp))
      have := cobsDec_block_then hl h2 (l2 ++ more.flatMap blockBytes)
      rw [blocksData_cons (by simp), List.flatMap_cons]
      simp only [List.flatMap_cons, blockBytes, List.cons_append] at hm this ⊢
      rw [this, hm]

end Sys2Proof.Machine
end

