-- ==== Sys2Proof/Laws/Memory.lean ====
section
/-! SUPPORT. The accesses to BUF: read after write, the canonical form, and one lemma per range access that says all it
can do. -/

namespace Sys2Proof.Machine

theorem Memory.read_insert (m : Memory) (a : Nat) (b : Byte) (j : Nat) :
    (m.insert a b).read j = if j = a then b else m.read j := by
  induction m with
  | nil =>
    by_cases h : a = j
    · subst h; simp [Memory.insert, Memory.read]
    · simp [Memory.insert, Memory.read, h, Ne.symm h]
  | cons p t ih =>
    obtain ⟨x, v⟩ := p
    simp only [Memory.insert]
    split
    · by_cases h : a = j
      · subst h; simp [Memory.read]
      · simp [Memory.read, h, Ne.symm h]
    · split
      · next _ h =>
        subst h
        by_cases h' : a = j
        · subst h'; simp [Memory.read]
        · simp [Memory.read, h', Ne.symm h']
      · next _ h =>
        simp only [Memory.read, ih]
        by_cases h' : x = j
        · subst h'; simp [Ne.symm h]
        · simp [h']

theorem Memory.read_erase (m : Memory) (a j : Nat) :
    (m.erase a).read j = if j = a then Memory.unlisted else m.read j := by
  induction m with
  | nil => simp [Memory.erase, Memory.read]
  | cons p t ih =>
    obtain ⟨x, v⟩ := p
    simp only [Memory.erase] at ih ⊢
    by_cases hx : x = a
    · subst hx
      rw [List.filter_cons_of_neg (by simp), ih]
      by_cases hj : j = x
      · simp [hj]
      · simp [Memory.read, hj, Ne.symm hj]
    · rw [List.filter_cons_of_pos (by simpa using hx)]
      simp only [Memory.read, ih]
      by_cases hj : x = j
      · subst hj; simp [hx]
      · simp [hj]

/-- A read after a write gives the byte written, at its index, and what was there, elsewhere. -/
theorem Memory.read_write (m : Memory) (a : Nat) (b : Byte) (j : Nat) :
    (m.write a b).read j = if j = a then b else m.read j := by
  unfold Memory.write
  split
  · next h => rw [Memory.read_erase, h]
  · exact Memory.read_insert m a b j

theorem Memory.mem_insert {m : Memory} {a : Nat} {b : Byte} {p : Host.Cell} (h : p ∈ m.insert a b) :
    p = (a, b) ∨ p ∈ m := by
  induction m with
  | nil => simpa [Memory.insert] using h
  | cons q t ih =>
    obtain ⟨x, v⟩ := q
    simp only [Memory.insert] at h
    split at h
    · simpa using h
    · split at h
      · simp only [List.mem_cons] at h ⊢; tauto
      · simp only [List.mem_cons] at h ⊢
        rcases h with h | h
        · exact .inr (.inl h)
        · exact (ih h).imp id .inr

/-- The entries after a write: old ones and, if any, the one written. -/
theorem Memory.mem_write {m : Memory} {a : Nat} {b : Byte} {p : Host.Cell} (h : p ∈ m.write a b) :
    p = (a, b) ∨ p ∈ m := by
  unfold Memory.write at h
  split at h
  · exact .inr (List.mem_of_mem_filter h)
  · exact Memory.mem_insert h

theorem Memory.sorted_insert {m : Memory} (h : m.Pairwise (fun x y => x.1 < y.1)) (a : Nat) (b : Byte) :
    (m.insert a b).Pairwise (fun x y => x.1 < y.1) := by
  induction m with
  | nil => simp [Memory.insert]
  | cons q t ih =>
    obtain ⟨x, v⟩ := q
    have ht := List.pairwise_cons.1 h
    simp only [Memory.insert]
    split
    · next hlt =>
      refine List.pairwise_cons.2 ⟨fun p hp => ?_, h⟩
      rcases List.mem_cons.1 hp with rfl | hp
      · exact hlt
      · exact lt_trans hlt (ht.1 p hp)
    · split
      · next _ heq => subst heq; exact List.pairwise_cons.2 ⟨ht.1, ht.2⟩
      · next h1 h2 =>
        refine List.pairwise_cons.2 ⟨fun p hp => ?_, ih ht.2⟩
        rcases Memory.mem_insert hp with rfl | hp
        · show x < a
          omega
        · exact ht.1 p hp

/-- A write keeps the canonical form. -/
theorem Memory.wf_write {m : Memory} (h : m.wf) (a : Nat) (b : Byte) : (m.write a b).wf := by
  unfold Memory.write
  split
  · exact ⟨h.1.filter _, fun p hp => h.2 p (List.mem_of_mem_filter hp)⟩
  · next hb =>
    refine ⟨Memory.sorted_insert h.1 a b, fun p hp => ?_⟩
    rcases Memory.mem_insert hp with rfl | hp
    · exact hb
    · exact h.2 p hp

theorem Memory.wf_tail {p : Host.Cell} {t : Memory} (h : Memory.wf (p :: t)) : Memory.wf t :=
  ⟨(List.pairwise_cons.1 h.1).2, fun q hq => h.2 q (List.mem_cons_of_mem _ hq)⟩

/-- An index below every entry is not listed. -/
theorem Memory.read_below {m : Memory} {a : Nat} (h : ∀ p ∈ m, a < p.1) : m.read a = Memory.unlisted := by
  induction m with
  | nil => rfl
  | cons p t ih =>
    have hp := h p (by simp)
    simp only [Memory.read, if_neg (by omega : ¬ p.1 = a)]
    exact ih (fun q hq => h q (by simp [hq]))

/-- Buffers in canonical form that read alike are the same list. -/
theorem Memory.ext_of_wf {m m' : Memory} (h : m.wf) (h' : m'.wf) (hr : ∀ a, m.read a = m'.read a) : m = m' := by
  induction m generalizing m' with
  | nil =>
    cases m' with
    | nil => rfl
    | cons q t =>
      have := hr q.1
      simp only [Memory.read, if_true] at this
      exact absurd this.symm (h'.2 q (by simp))
  | cons p t ih =>
    cases m' with
    | nil =>
      have := hr p.1
      simp only [Memory.read, if_true] at this
      exact absurd this (h.2 p (by simp))
    | cons q u =>
      have ht := List.pairwise_cons.1 h.1
      have hu := List.pairwise_cons.1 h'.1
      have hpq : p.1 = q.1 := by
        rcases Nat.lt_trichotomy p.1 q.1 with hlt | heq | hlt
        · have := hr p.1
          rw [Memory.read_below (m := q :: u) (fun z hz => by
            rcases List.mem_cons.1 hz with rfl | hz
            · exact hlt
            · exact lt_trans hlt (hu.1 z hz))] at this
          simp only [Memory.read, if_true] at this
          exact absurd this (h.2 p (by simp))
        · exact heq
        · have := hr q.1
          rw [Memory.read_below (m := p :: t) (fun z hz => by
            rcases List.mem_cons.1 hz with rfl | hz
            · exact hlt
            · exact lt_trans hlt (ht.1 z hz))] at this
          simp only [Memory.read, if_true] at this
          exact absurd this.symm (h'.2 q (by simp))
      have hv : p.2 = q.2 := by
        have := hr p.1
        simpa only [Memory.read, if_true, hpq] using this
      have hpq' : p = q := Prod.ext hpq hv
      subst hpq'
      congr 1
      refine ih (Memory.wf_tail h) (Memory.wf_tail h') (fun a => ?_)
      by_cases ha : p.1 = a
      · subst ha; rw [Memory.read_below ht.1, Memory.read_below hu.1]
      · have := hr a
        simpa only [Memory.read, if_neg ha] using this

/-- Writing every byte of a sequence in index order. -/
def Memory.writeAll (m : Memory) (a : Nat) : Bytes → Memory
  | [] => m
  | b :: bs => Memory.writeAll (m.write a b) (a + 1) bs

theorem Memory.read_writeAll (m : Memory) (a : Nat) (bs : Bytes) (j : Nat) :
    (m.writeAll a bs).read j = (if a ≤ j then bs[j - a]? else none).getD (m.read j) := by
  induction bs generalizing m a with
  | nil => simp [Memory.writeAll]
  | cons b bs ih =>
    rw [Memory.writeAll, ih, Memory.read_write]
    by_cases h : j = a
    · subst h; simp
    · by_cases h2 : a + 1 ≤ j
      · rw [if_pos h2, if_neg h, if_pos (by omega), show j - a = (j - (a + 1)) + 1 by omega, List.getElem?_cons_succ]
      · rw [if_neg h2, if_neg h, if_neg (by omega)]

/-- A range write leaves every index outside the range. -/
theorem Memory.read_writeAll_outside (m : Memory) {a j : Nat} {bs : Bytes} (h : j < a ∨ a + bs.length ≤ j) :
    (m.writeAll a bs).read j = m.read j := by
  rw [Memory.read_writeAll]
  split
  · rw [List.getElem?_eq_none (by omega)]; rfl
  · rfl

theorem Memory.wf_writeAll {m : Memory} (h : m.wf) (a : Nat) (bs : Bytes) : (m.writeAll a bs).wf := by
  induction bs generalizing m a with
  | nil => exact h
  | cons b bs ih => exact ih (Memory.wf_write h a b) (a + 1)

theorem Memory.inRange_writeAll {m : Memory} {cap : Nat} (h : ∀ p ∈ m, p.1 < cap) (a : Nat) (bs : Bytes)
    (hc : a + bs.length ≤ cap) : ∀ p ∈ m.writeAll a bs, p.1 < cap := by
  induction bs generalizing m a with
  | nil => exact h
  | cons b bs ih =>
    simp only [List.length_cons] at hc
    refine ih (fun p hp => ?_) (a + 1) (by omega)
    rcases Memory.mem_write hp with rfl | hp
    · simp only; omega
    · exact h p hp

/-- A range write inside the buffer writes all its bytes. -/
theorem memWriteRange_ok {cap : Nat} (m : Memory) (a : Nat) (bs : Bytes) (h : a + bs.length ≤ cap) :
    memWriteRange cap m a bs = .ok (m.writeAll a bs) := by
  induction bs generalizing m a with
  | nil => rfl
  | cons b bs ih =>
    simp only [List.length_cons] at h
    simp only [memWriteRange, memWrite, show a < cap by omega, if_true]
    exact ih _ _ (by omega)

/-- Whatever a range write answers, the memory it gives is the one with all its bytes written. -/
theorem memWriteRange_eq {cap : Nat} {m m' : Memory} {a : Nat} {bs : Bytes}
    (h : memWriteRange cap m a bs = .ok m') : m' = m.writeAll a bs := by
  induction bs generalizing m a with
  | nil => simpa [memWriteRange, Memory.writeAll, eq_comm] using h
  | cons b bs ih =>
    simp only [memWriteRange, memWrite] at h
    split at h
    · cases h
    · next h' =>
      split at h'
      · cases h'; exact ih h
      · cases h'

/-- `BUF[a..a+len(bs))` holds `bs`. -/
def Memory.Has (m : Memory) (a : Nat) (bs : Bytes) : Prop := ∀ j, j < bs.length → bs[j]? = some (m.read (a + j))

theorem Memory.Has.cons {m : Memory} {a : Nat} {b : Byte} {bs : Bytes} :
    m.Has a (b :: bs) ↔ m.read a = b ∧ m.Has (a + 1) bs := by
  constructor
  · intro h
    refine ⟨by simpa [eq_comm] using h 0 (by simp), fun j hj => ?_⟩
    have := h (j + 1) (by simpa using hj)
    rwa [List.getElem?_cons_succ, show a + (j + 1) = a + 1 + j by omega] at this
  · rintro ⟨h0, h⟩ j hj
    cases j with
    | zero => simpa [eq_comm] using h0
    | succ j =>
      rw [List.getElem?_cons_succ, show a + (j + 1) = a + 1 + j by omega]
      exact h j (by simpa using hj)

theorem Memory.Has.nil (m : Memory) (a : Nat) : m.Has a [] := fun j hj => by simp at hj

theorem Memory.Has.append {m : Memory} {a : Nat} {xs ys : Bytes} :
    m.Has a (xs ++ ys) ↔ m.Has a xs ∧ m.Has (a + xs.length) ys := by
  induction xs generalizing a with
  | nil => simp [Memory.Has.nil]
  | cons x xs ih =>
    rw [List.cons_append, Memory.Has.cons, Memory.Has.cons, ih, List.length_cons, and_assoc,
      show a + 1 + xs.length = a + (xs.length + 1) by omega]

theorem Memory.has_writeAll (m : Memory) (a : Nat) (bs : Bytes) : (m.writeAll a bs).Has a bs := by
  intro j hj
  rw [Memory.read_writeAll, if_pos (by omega), show a + j - a = j by omega, List.getElem?_eq_getElem hj]; rfl

/-- A range write leaves what lies before it. -/
theorem Memory.Has.writeAll_below {m : Memory} {a : Nat} {xs : Bytes} (h : m.Has a xs) (c : Nat) (bs : Bytes)
    (hc : a + xs.length ≤ c) : (m.writeAll c bs).Has a xs := by
  intro j hj
  rw [Memory.read_writeAll_outside _ (.inl (by omega)), h j hj]

/-- Appending to `BUF[0..n)`. -/
theorem Memory.Has.writeAll_append {m : Memory} {xs : Bytes} (h : m.Has 0 xs) (bs : Bytes) :
    (m.writeAll xs.length bs).Has 0 (xs ++ bs) := by
  refine Memory.Has.append.2 ⟨h.writeAll_below _ _ (by omega), ?_⟩
  simpa using Memory.has_writeAll m xs.length bs

/-- Two sequences that a buffer holds from one index, of one length, are the same. -/
theorem Memory.Has.unique {m : Memory} {a : Nat} {bs cs : Bytes} (h : m.Has a bs) (h' : m.Has a cs)
    (hl : bs.length = cs.length) : bs = cs := by
  refine List.ext_getElem? (fun j => ?_)
  by_cases hj : j < bs.length
  · rw [h j hj, h' j (by omega)]
  · rw [List.getElem?_eq_none (by omega), List.getElem?_eq_none (by omega)]

/-- `BUF[a..a+n)` holds some sequence. -/
theorem Memory.exists_has (m : Memory) (a n : Nat) : ∃ bs : Bytes, bs.length = n ∧ m.Has a bs := by
  induction n generalizing a with
  | zero => exact ⟨[], rfl, Memory.Has.nil _ _⟩
  | succ n ih =>
    obtain ⟨bs, hl, hh⟩ := ih (a + 1)
    exact ⟨m.read a :: bs, by simp [hl], Memory.Has.cons.2 ⟨rfl, hh⟩⟩

/-- A range read inside the buffer answers the bytes that are there. -/
theorem memReadRange_ok {cap : Nat} {m : Memory} {a : Nat} {bs : Bytes} (h : m.Has a bs)
    (hc : bs.length ≠ 0 → a + bs.length ≤ cap) : memReadRange cap m a bs.length = .ok bs := by
  induction bs generalizing a with
  | nil => rfl
  | cons b bs ih =>
    have h2 := Memory.Has.cons.1 h
    simp only [List.length_cons] at hc ⊢
    simp only [memReadRange, memRead, show a < cap by omega, if_true, h2.1]
    rw [ih h2.2 (by omega)]

/-- A range read that answers lies inside the buffer. -/
theorem memReadRange_inside {cap : Nat} {m : Memory} {a n : Nat} {bs : Bytes}
    (h : memReadRange cap m a n = .ok bs) : n ≠ 0 → a + n ≤ cap := by
  induction n generalizing a bs with
  | zero => simp
  | succ n ih =>
    intro _
    simp only [memReadRange, memRead] at h
    split at h
    · cases h
    · next hb =>
      split at hb
      · cases hn : memReadRange cap m (a + 1) n with
        | error f => rw [hn] at h; cases h
        | ok t => have := ih hn; omega
      · cases hb

/-- A range read answers exactly the bytes that are there, if all are inside the buffer. -/
theorem memReadRange_ok_iff {cap : Nat} {m : Memory} {a n : Nat} {bs : Bytes} :
    memReadRange cap m a n = .ok bs ↔ bs.length = n ∧ m.Has a bs ∧ (n ≠ 0 → a + n ≤ cap) := by
  constructor
  · intro h
    have hi := memReadRange_inside h
    obtain ⟨cs, hl, hh⟩ := m.exists_has a n
    have := memReadRange_ok (cap := cap) hh (by rwa [hl])
    rw [hl, h] at this
    cases this
    exact ⟨hl, hh, hi⟩
  · rintro ⟨rfl, hh, hi⟩
    exact memReadRange_ok hh hi

/-- `firstZero` finds the end of the zero-free part in front (R12). -/
theorem firstZero_eq_none_iff {d : Bytes} : firstZero d = none ↔ ∀ b ∈ d, b ≠ 0x00#8 := by
  induction d with
  | nil => simp [firstZero]
  | cons b d ih =>
    simp only [firstZero, List.mem_cons]
    split
    · next h => simp [h]
    · next h => simp only [Option.map_eq_none_iff, ih]; simp_all

theorem firstZero_append_zero {e : Bytes} (h : ∀ b ∈ e, b ≠ 0x00#8) (rest : Bytes) :
    firstZero (e ++ 0x00#8 :: rest) = some e.length := by
  induction e with
  | nil => simp [firstZero]
  | cons b e ih =>
    have hb : b ≠ 0x00#8 := h b (by simp)
    simp only [List.cons_append, firstZero, if_neg hb, List.length_cons]
    rw [ih (fun c hc => h c (by simp [hc]))]; rfl

/-- A sequence either has no 0x00 or splits at its first one. -/
theorem zero_split (d : Bytes) :
    (∀ b ∈ d, b ≠ 0x00#8) ∨ ∃ e rest, d = e ++ 0x00#8 :: rest ∧ ∀ b ∈ e, b ≠ 0x00#8 := by
  induction d with
  | nil => exact .inl (by simp)
  | cons b d ih =>
    by_cases hb : b = 0x00#8
    · exact .inr ⟨[], d, by simp [hb], by simp⟩
    · rcases ih with h | ⟨e, rest, rfl, he⟩
      · exact .inl (by simpa [hb] using h)
      · exact .inr ⟨b :: e, rest, rfl, by simpa [hb] using he⟩

/-- The scan inside the buffer finds what `firstZero` finds (R12, R165). -/
theorem bufFirstZero_ok {cap : Nat} {m : Memory} {a : Nat} {bs : Bytes} (h : m.Has a bs) (hc : a + bs.length ≤ cap) :
    bufFirstZero cap m a bs.length = .ok ((firstZero bs).map (a + ·)) := by
  induction bs generalizing a with
  | nil => rfl
  | cons b bs ih =>
    have h2 := Memory.Has.cons.1 h
    simp only [List.length_cons] at hc ⊢
    simp only [bufFirstZero, memRead, show a < cap by omega, if_true, h2.1, firstZero]
    split
    · simp
    · rw [ih h2.2 (by omega)]
      cases firstZero bs
      · simp
      · simp; omega

end Sys2Proof.Machine
end

