-- ==== Sys2Proof/Laws/PerInstr.lean ====
section
/-! SUPPORT. Facts about every instruction as syntax, one lemma per constructor. -/

namespace Sys2Proof.Laws

/-- The decoder of an instruction's space reads something from its encoding. -/
def NotRefused.Statement (i : Instr) : Prop :=
  ∀ cfg : Config, (decodeIn cfg i.space (encode cfg i)).isSome = true

theorem decodeCode_isSome (c : Byte) (rest : Bytes) : (decodeCode (c :: rest)).isSome = true := by
  simp only [decodeCode]; split <;> rfl

theorem decodeKind_isSome (km : KindMap) (k : Byte) (rest : Bytes) : (decodeKind km (k :: rest)).isSome = true := by
  simp only [decodeKind]; split <;> rfl

theorem NotRefused.chunk (c : Bytes) : NotRefused.Statement (.chunk c) := fun _ => rfl
theorem NotRefused.enc (d : Bytes) : NotRefused.Statement (.enc d) := fun _ => rfl
theorem NotRefused.dec (s : Bytes) : NotRefused.Statement (.dec s) := fun _ => rfl
theorem NotRefused.disc (m : Bytes) : NotRefused.Statement (.disc m) := fun _ => rfl
theorem NotRefused.build (k : Byte) (p : Bytes) : NotRefused.Statement (.build k p) := fun _ => rfl
theorem NotRefused.reset : NotRefused.Statement .reset := fun _ => rfl
theorem NotRefused.rdcnt (n : Byte) : NotRefused.Statement (.rdcnt n) := fun _ => rfl
theorem NotRefused.illegal (w : Bytes) : NotRefused.Statement (.illegal w) := fun _ => rfl
theorem NotRefused.delim (rest : Bytes) : NotRefused.Statement (.delim rest) := fun _ => decodeCode_isSome 0x00#8 rest
theorem NotRefused.run (c : Byte) (rest : Bytes) : NotRefused.Statement (.run c rest) :=
  fun _ => decodeCode_isSome c rest
theorem NotRefused.full (rest : Bytes) : NotRefused.Statement (.full rest) := fun _ => decodeCode_isSome 0xFF#8 rest
theorem NotRefused.kindLog (p : Bytes) : NotRefused.Statement (.kindLog p) := fun _ => decodeKind_isSome _ _ p
theorem NotRefused.kindVideo (p : Bytes) : NotRefused.Statement (.kindVideo p) := fun _ => decodeKind_isSome _ _ p
theorem NotRefused.kindSound (p : Bytes) : NotRefused.Statement (.kindSound p) := fun _ => decodeKind_isSome _ _ p
theorem NotRefused.kindNetwork (p : Bytes) : NotRefused.Statement (.kindNetwork p) := fun _ => decodeKind_isSome _ _ p
theorem NotRefused.kindInput (p : Bytes) : NotRefused.Statement (.kindInput p) := fun _ => decodeKind_isSome _ _ p
theorem NotRefused.kindUnknown (k : Byte) (rest : Bytes) : NotRefused.Statement (.kindUnknown k rest) :=
  fun _ => decodeKind_isSome _ k rest

end Sys2Proof.Laws
end

