-- ==== Sys2Proof/Laws/State.lean ====
section
/-! SUPPORT. The named updates of State, field by field, so that no later proof unfolds a record update. -/

namespace Sys2Proof.Machine

@[simp] theorem State.count_cfg (s : State) (e : EventCode) : (s.count e).cfg = s.cfg := rfl
@[simp] theorem State.count_mem (s : State) (e : EventCode) : (s.count e).mem = s.mem := rfl
@[simp] theorem State.count_wo (s : State) (e : EventCode) : (s.count e).wo = s.wo := rfl
@[simp] theorem State.count_sc (s : State) (e : EventCode) : (s.count e).sc = s.sc := rfl
@[simp] theorem State.count_busy (s : State) (e : EventCode) : (s.count e).busy = s.busy := rfl
@[simp] theorem State.count_hunt (s : State) (e : EventCode) : (s.count e).hunt = s.hunt := rfl
@[simp] theorem State.count_pend (s : State) (e : EventCode) : (s.count e).pend = s.pend := rfl
@[simp] theorem State.count_cnt (s : State) (e : EventCode) : (s.count e).cnt = s.cnt.incr e := rfl
@[simp] theorem State.count_queue (s : State) (e : EventCode) : (s.count e).queue = s.queue := rfl
@[simp] theorem State.count_agent (s : State) (e : EventCode) : (s.count e).agent = s.agent := rfl
@[simp] theorem State.count_owner (s : State) (e : EventCode) : (s.count e).owner = s.owner := rfl
@[simp] theorem State.count_deliveries (s : State) (e : EventCode) : (s.count e).deliveries = s.deliveries := rfl

@[simp] theorem State.latch_cfg (s : State) (c : Bytes) : (s.latch c).cfg = s.cfg := rfl
@[simp] theorem State.latch_mem (s : State) (c : Bytes) : (s.latch c).mem = s.mem := rfl
@[simp] theorem State.latch_wo (s : State) (c : Bytes) : (s.latch c).wo = s.wo := rfl
@[simp] theorem State.latch_sc (s : State) (c : Bytes) : (s.latch c).sc = s.sc := rfl
@[simp] theorem State.latch_busy (s : State) (c : Bytes) : (s.latch c).busy = true := rfl
@[simp] theorem State.latch_hunt (s : State) (c : Bytes) : (s.latch c).hunt = s.hunt := rfl
@[simp] theorem State.latch_pend (s : State) (c : Bytes) : (s.latch c).pend = c := rfl
@[simp] theorem State.latch_cnt (s : State) (c : Bytes) : (s.latch c).cnt = s.cnt := rfl
@[simp] theorem State.latch_queue (s : State) (c : Bytes) : (s.latch c).queue = s.queue := rfl
@[simp] theorem State.latch_agent (s : State) (c : Bytes) : (s.latch c).agent = s.agent := rfl
@[simp] theorem State.latch_owner (s : State) (c : Bytes) : (s.latch c).owner = s.agent := rfl
@[simp] theorem State.latch_deliveries (s : State) (c : Bytes) : (s.latch c).deliveries = s.deliveries := rfl

@[simp] theorem State.unlatch_cfg (s : State) : (s.unlatch).cfg = s.cfg := rfl
@[simp] theorem State.unlatch_mem (s : State) : (s.unlatch).mem = s.mem := rfl
@[simp] theorem State.unlatch_wo (s : State) : (s.unlatch).wo = s.wo := rfl
@[simp] theorem State.unlatch_sc (s : State) : (s.unlatch).sc = s.sc := rfl
@[simp] theorem State.unlatch_busy (s : State) : (s.unlatch).busy = false := rfl
@[simp] theorem State.unlatch_hunt (s : State) : (s.unlatch).hunt = s.hunt := rfl
@[simp] theorem State.unlatch_pend (s : State) : (s.unlatch).pend = [] := rfl
@[simp] theorem State.unlatch_cnt (s : State) : (s.unlatch).cnt = s.cnt := rfl
@[simp] theorem State.unlatch_queue (s : State) : (s.unlatch).queue = s.queue := rfl
@[simp] theorem State.unlatch_agent (s : State) : (s.unlatch).agent = s.agent := rfl
@[simp] theorem State.unlatch_owner (s : State) : (s.unlatch).owner = 0 := rfl
@[simp] theorem State.unlatch_deliveries (s : State) : (s.unlatch).deliveries = s.deliveries := rfl

@[simp] theorem State.endHunt_cfg (s : State) : (s.endHunt).cfg = s.cfg := rfl
@[simp] theorem State.endHunt_mem (s : State) : (s.endHunt).mem = s.mem := rfl
@[simp] theorem State.endHunt_wo (s : State) : (s.endHunt).wo = s.wo := rfl
@[simp] theorem State.endHunt_sc (s : State) : (s.endHunt).sc = s.sc := rfl
@[simp] theorem State.endHunt_busy (s : State) : (s.endHunt).busy = s.busy := rfl
@[simp] theorem State.endHunt_hunt (s : State) : (s.endHunt).hunt = false := rfl
@[simp] theorem State.endHunt_pend (s : State) : (s.endHunt).pend = s.pend := rfl
@[simp] theorem State.endHunt_cnt (s : State) : (s.endHunt).cnt = s.cnt := rfl
@[simp] theorem State.endHunt_queue (s : State) : (s.endHunt).queue = s.queue := rfl
@[simp] theorem State.endHunt_agent (s : State) : (s.endHunt).agent = s.agent := rfl
@[simp] theorem State.endHunt_owner (s : State) : (s.endHunt).owner = s.owner := rfl
@[simp] theorem State.endHunt_deliveries (s : State) : (s.endHunt).deliveries = s.deliveries := rfl

@[simp] theorem State.discard_cfg (s : State) : (s.discard).cfg = s.cfg := rfl
@[simp] theorem State.discard_mem (s : State) : (s.discard).mem = s.mem := rfl
@[simp] theorem State.discard_wo (s : State) : (s.discard).wo = 0 := rfl
@[simp] theorem State.discard_sc (s : State) : (s.discard).sc = 0 := rfl
@[simp] theorem State.discard_busy (s : State) : (s.discard).busy = s.busy := rfl
@[simp] theorem State.discard_hunt (s : State) : (s.discard).hunt = true := rfl
@[simp] theorem State.discard_pend (s : State) : (s.discard).pend = s.pend := rfl
@[simp] theorem State.discard_cnt (s : State) : (s.discard).cnt = s.cnt := rfl
@[simp] theorem State.discard_queue (s : State) : (s.discard).queue = s.queue := rfl
@[simp] theorem State.discard_agent (s : State) : (s.discard).agent = s.agent := rfl
@[simp] theorem State.discard_owner (s : State) : (s.discard).owner = s.owner := rfl
@[simp] theorem State.discard_deliveries (s : State) : (s.discard).deliveries = s.deliveries := rfl

@[simp] theorem State.deliverTo_cfg (s : State) (a : Nat) (r : Response) : (s.deliverTo a r).cfg = s.cfg := rfl
@[simp] theorem State.deliverTo_mem (s : State) (a : Nat) (r : Response) : (s.deliverTo a r).mem = s.mem := rfl
@[simp] theorem State.deliverTo_wo (s : State) (a : Nat) (r : Response) : (s.deliverTo a r).wo = s.wo := rfl
@[simp] theorem State.deliverTo_sc (s : State) (a : Nat) (r : Response) : (s.deliverTo a r).sc = s.sc := rfl
@[simp] theorem State.deliverTo_busy (s : State) (a : Nat) (r : Response) : (s.deliverTo a r).busy = s.busy := rfl
@[simp] theorem State.deliverTo_hunt (s : State) (a : Nat) (r : Response) : (s.deliverTo a r).hunt = s.hunt := rfl
@[simp] theorem State.deliverTo_pend (s : State) (a : Nat) (r : Response) : (s.deliverTo a r).pend = s.pend := rfl
@[simp] theorem State.deliverTo_cnt (s : State) (a : Nat) (r : Response) : (s.deliverTo a r).cnt = s.cnt := rfl
@[simp] theorem State.deliverTo_queue (s : State) (a : Nat) (r : Response) : (s.deliverTo a r).queue = s.queue := rfl
@[simp] theorem State.deliverTo_agent (s : State) (a : Nat) (r : Response) : (s.deliverTo a r).agent = s.agent := rfl
@[simp] theorem State.deliverTo_owner (s : State) (a : Nat) (r : Response) : (s.deliverTo a r).owner = s.owner := rfl
@[simp] theorem State.deliverTo_deliveries (s : State) (a : Nat) (r : Response) : (s.deliverTo a r).deliveries = s.deliveries ++ [{ agent := a, response := r }] := rfl

@[simp] theorem State.respond_cfg (s : State) (r : Response) : (s.respond r).cfg = s.cfg := rfl
@[simp] theorem State.respond_mem (s : State) (r : Response) : (s.respond r).mem = s.mem := rfl
@[simp] theorem State.respond_wo (s : State) (r : Response) : (s.respond r).wo = s.wo := rfl
@[simp] theorem State.respond_sc (s : State) (r : Response) : (s.respond r).sc = s.sc := rfl
@[simp] theorem State.respond_busy (s : State) (r : Response) : (s.respond r).busy = s.busy := rfl
@[simp] theorem State.respond_hunt (s : State) (r : Response) : (s.respond r).hunt = s.hunt := rfl
@[simp] theorem State.respond_pend (s : State) (r : Response) : (s.respond r).pend = s.pend := rfl
@[simp] theorem State.respond_cnt (s : State) (r : Response) : (s.respond r).cnt = s.cnt := rfl
@[simp] theorem State.respond_queue (s : State) (r : Response) : (s.respond r).queue = s.queue := rfl
@[simp] theorem State.respond_agent (s : State) (r : Response) : (s.respond r).agent = s.agent := rfl
@[simp] theorem State.respond_owner (s : State) (r : Response) : (s.respond r).owner = s.owner := rfl
@[simp] theorem State.respond_deliveries (s : State) (r : Response) : (s.respond r).deliveries = s.deliveries ++ [{ agent := s.agent, response := r }] := rfl

@[simp] theorem State.clear_cfg (s : State) : (s.clear).cfg = s.cfg := rfl
@[simp] theorem State.clear_mem (s : State) : (s.clear).mem = s.mem := rfl
@[simp] theorem State.clear_wo (s : State) : (s.clear).wo = 0 := rfl
@[simp] theorem State.clear_sc (s : State) : (s.clear).sc = 0 := rfl
@[simp] theorem State.clear_busy (s : State) : (s.clear).busy = false := rfl
@[simp] theorem State.clear_hunt (s : State) : (s.clear).hunt = false := rfl
@[simp] theorem State.clear_pend (s : State) : (s.clear).pend = [] := rfl
@[simp] theorem State.clear_cnt (s : State) : (s.clear).cnt = Counters.zero := rfl
@[simp] theorem State.clear_queue (s : State) : (s.clear).queue = s.queue := rfl
@[simp] theorem State.clear_agent (s : State) : (s.clear).agent = s.agent := rfl
@[simp] theorem State.clear_owner (s : State) : (s.clear).owner = 0 := rfl
@[simp] theorem State.clear_deliveries (s : State) : (s.clear).deliveries = s.deliveries := rfl

@[simp] theorem State.recreate_cfg (s : State) : (s.recreate).cfg = s.cfg := rfl
@[simp] theorem State.recreate_mem (s : State) : (s.recreate).mem = [] := rfl
@[simp] theorem State.recreate_wo (s : State) : (s.recreate).wo = 0 := rfl
@[simp] theorem State.recreate_sc (s : State) : (s.recreate).sc = 0 := rfl
@[simp] theorem State.recreate_busy (s : State) : (s.recreate).busy = false := rfl
@[simp] theorem State.recreate_hunt (s : State) : (s.recreate).hunt = false := rfl
@[simp] theorem State.recreate_pend (s : State) : (s.recreate).pend = [] := rfl
@[simp] theorem State.recreate_cnt (s : State) : (s.recreate).cnt = Counters.zero := rfl
@[simp] theorem State.recreate_queue (s : State) : (s.recreate).queue = s.queue := rfl
@[simp] theorem State.recreate_agent (s : State) : (s.recreate).agent = 0 := rfl
@[simp] theorem State.recreate_owner (s : State) : (s.recreate).owner = 0 := rfl
@[simp] theorem State.recreate_deliveries (s : State) : (s.recreate).deliveries = s.deliveries := rfl

@[simp] theorem State.withFetchWord_cfg (s : State) (n w : Nat) : (s.withFetchWord n w).cfg = s.cfg := rfl
@[simp] theorem State.withFetchWord_mem (s : State) (n w : Nat) : (s.withFetchWord n w).mem = s.mem := rfl
@[simp] theorem State.withFetchWord_wo (s : State) (n w : Nat) : (s.withFetchWord n w).wo = s.wo := rfl
@[simp] theorem State.withFetchWord_sc (s : State) (n w : Nat) : (s.withFetchWord n w).sc = s.sc := rfl
@[simp] theorem State.withFetchWord_busy (s : State) (n w : Nat) : (s.withFetchWord n w).busy = s.busy := rfl
@[simp] theorem State.withFetchWord_hunt (s : State) (n w : Nat) : (s.withFetchWord n w).hunt = s.hunt := rfl
@[simp] theorem State.withFetchWord_pend (s : State) (n w : Nat) : (s.withFetchWord n w).pend = s.pend := rfl
@[simp] theorem State.withFetchWord_cnt (s : State) (n w : Nat) : (s.withFetchWord n w).cnt = s.cnt := rfl
@[simp] theorem State.withFetchWord_queue (s : State) (n w : Nat) : (s.withFetchWord n w).queue = .present s.agent (tableTransaction n w) :: s.queue := rfl
@[simp] theorem State.withFetchWord_agent (s : State) (n w : Nat) : (s.withFetchWord n w).agent = s.agent := rfl
@[simp] theorem State.withFetchWord_owner (s : State) (n w : Nat) : (s.withFetchWord n w).owner = s.owner := rfl
@[simp] theorem State.withFetchWord_deliveries (s : State) (n w : Nat) : (s.withFetchWord n w).deliveries = s.deliveries := rfl

@[simp] theorem Progress.raise_state (x : Progress) (e : EventCode) (i : Option Byte) :
    (x.raise e i).state = x.state.count e := rfl
@[simp] theorem Progress.raise_events (x : Progress) (e : EventCode) (i : Option Byte) :
    (x.raise e i).events = x.events ++ [{ code := e, info := i }] := rfl
@[simp] theorem Progress.noPacket_state (x : Progress) : x.noPacket.state = x.state := rfl
@[simp] theorem Progress.noPacket_events (x : Progress) : x.noPacket.events = x.events := rfl
@[simp] theorem Progress.noPacket_packet (x : Progress) : x.noPacket.packet = none := rfl
@[simp] theorem overflowed_state (x : Progress) :
    (overflowed x).state = (x.state.count .overflow).discard := rfl
@[simp] theorem overflowed_events (x : Progress) :
    (overflowed x).events = x.events ++ [{ code := .overflow, info := none }] := rfl

/-- Counting an event adds one to its own counter and leaves the others. -/
theorem Counters.get_incr (n : Counters) (e f : EventCode) :
    (n.incr e).get f = if f = e then n.get f + 1#32 else n.get f := by
  cases e <;> cases f <;> rfl

end Sys2Proof.Machine
end

