-- ==== Sys2Proof/Laws/Reassembler.lean ====
section
/-! SUPPORT. PROCESS and its parts: what each can do, in every state (the `_cases` lemmas) and in a state whose buffer
meets the invariants (the `_ok` lemmas). -/

namespace Sys2Proof.Machine

/-- FRAME_TO_PACKET surfaces a packet, or raises exactly one event. -/
theorem frameToPacket_cases (x : Progress) (frame : Bytes) :
    (∃ p, frameToPacket x frame = { state := x.state, events := x.events, packet := some p }) ∨
    (∃ e i, (e = .frameTruncated ∨ e = .frameEmpty ∨ e = .unknownKind) ∧
      frameToPacket x frame = (x.raise e i).noPacket) := by
  simp only [frameToPacket]
  split
  · exact .inr ⟨.frameTruncated, none, by simp, rfl⟩
  · split
    · next p _ => exact .inl ⟨p, rfl⟩
    · exact .inr ⟨.frameEmpty, none, by simp, rfl⟩
    · next k _ => exact .inr ⟨.unknownKind, some k, by simp, rfl⟩

/-- What `absorb` can do: wait, or hand the first frame on with the remainder moved down. -/
theorem absorb_cases {x : Progress} {c : Bytes} {p : Processed} (h : absorb x c = .ok p) :
    (∃ m, p = { state := { x.state with mem := m, wo := x.state.wo + c.length, sc := x.state.wo + c.length },
                events := x.events, packet := none }) ∨
    (∃ m r frame, p = frameToPacket { x with state := { x.state with mem := m, wo := r, sc := 0 } } frame) := by
  simp only [absorb] at h
  split at h
  · cases h
  · split at h
    · cases h
    · next m _ _ _ => cases h; exact .inl ⟨m, rfl⟩
    · split at h
      · cases h
      · split at h
        · cases h
        · split at h
          · cases h
          · next m' _ => cases h; exact .inr ⟨_, _, _, rfl⟩

/-- While hunting, bytes before the delimiter are discarded (R170). -/
theorem huntOn_lost (x : Progress) {lost : Bytes} (h : ZeroFree lost) (c : Bytes) :
    huntOn x (lost ++ c) = huntOn x c := by
  induction lost with
  | nil => rfl
  | cons b lost ih =>
    simp only [List.cons_append, huntOn, if_neg (h b (by simp))]
    exact ih (fun d hd => h d (by simp [hd]))

theorem huntOn_zeroFree (x : Progress) {c : Bytes} (h : ZeroFree c) : huntOn x c = .ok x.noPacket := by
  simpa [huntOn] using huntOn_lost x h []

theorem huntOn_zero (x : Progress) (c : Bytes) :
    huntOn x (0x00#8 :: c) =
      if x.state.cfg.cap < x.state.wo + c.length then huntOn (overflowed { x with state := x.state.endHunt }) c
      else absorb { x with state := x.state.endHunt } c := rfl

/-- The chunk that fits, with no delimiter in sight: it is appended and the block waits (R164, R166). -/
theorem absorb_wait {x : Progress} {live c : Bytes} (hl : live.length = x.state.wo) (hh : x.state.mem.Has 0 live)
    (hsc : x.state.sc ≤ x.state.wo) (hc : x.state.wo + c.length ≤ x.state.cfg.cap) (hz : ZeroFree (live ++ c)) :
    absorb x c = .ok { state := { x.state with
                         mem := x.state.mem.writeAll x.state.wo c
                         wo := x.state.wo + c.length
                         sc := x.state.wo + c.length }
                       events := x.events, packet := none } := by
  have hm : (x.state.mem.writeAll x.state.wo c).Has 0 (live ++ c) := hl ▸ hh.writeAll_append c
  have hs : ((live ++ c).drop x.state.sc).length = x.state.wo + c.length - x.state.sc := by simp [hl]
  have hm2 : (x.state.mem.writeAll x.state.wo c).Has x.state.sc ((live ++ c).drop x.state.sc) := by
    have h' := hm
    rw [← List.take_append_drop x.state.sc (live ++ c)] at h'
    have h2 := (Memory.Has.append.1 h').2
    rw [List.length_take] at h2
    have e : 0 + min x.state.sc (live ++ c).length = x.state.sc := by simp [hl]; omega
    rwa [e] at h2
  have hz2 : firstZero ((live ++ c).drop x.state.sc) = none :=
    firstZero_eq_none_iff.2 (fun b hb => hz b (List.mem_of_mem_drop hb))
  have hf := bufFirstZero_ok (cap := x.state.cfg.cap) hm2 (by rw [hs]; omega)
  rw [hs, hz2] at hf
  simp only [absorb, memWriteRange_ok _ _ _ hc, hf, Option.map_none]

/-- The chunk that fits, with a delimiter: the first frame is taken out and the remainder moved to index 0 (R167, R73). -/
theorem absorb_extract {x : Progress} {live c frame rem : Bytes} (hl : live.length = x.state.wo)
    (hh : x.state.mem.Has 0 live) (hsc : x.state.sc ≤ x.state.wo) (hsz : ZeroFree (live.take x.state.sc))
    (hc : x.state.wo + c.length ≤ x.state.cfg.cap) (he : live ++ c = frame ++ 0x00#8 :: rem) (hz : ZeroFree frame) :
    absorb x c = .ok (frameToPacket { x with state := { x.state with
                         mem := (x.state.mem.writeAll x.state.wo c).writeAll 0 rem
                         wo := rem.length
                         sc := 0 } } frame) := by
  have hlen : x.state.wo + c.length = frame.length + 1 + rem.length := by
    have := congrArg List.length he
    simp only [List.length_append, List.length_cons, hl] at this; omega
  have hm : (x.state.mem.writeAll x.state.wo c).Has 0 (frame ++ 0x00#8 :: rem) := he ▸ hl ▸ hh.writeAll_append c
  have hle : x.state.sc ≤ frame.length := by
    by_contra hlt
    have h1 : (live ++ c)[frame.length]? = some 0x00#8 := by rw [he]; simp
    rw [List.getElem?_append_left (by omega)] at h1
    have h2 : (live.take x.state.sc)[frame.length]? = some 0x00#8 := by
      rw [List.getElem?_take_of_lt (by omega)]; exact h1
    exact hsz _ (List.mem_of_getElem? h2) rfl
  have hm2 : (x.state.mem.writeAll x.state.wo c).Has x.state.sc (frame.drop x.state.sc ++ 0x00#8 :: rem) := by
    have h' := hm
    rw [← List.take_append_drop x.state.sc frame, List.append_assoc] at h'
    have h2 := (Memory.Has.append.1 h').2
    rw [List.length_take] at h2
    have e : 0 + min x.state.sc frame.length = x.state.sc := by omega
    rwa [e] at h2
  have hdl : (frame.drop x.state.sc ++ 0x00#8 :: rem).length = x.state.wo + c.length - x.state.sc := by
    simp; omega
  have hf := bufFirstZero_ok (cap := x.state.cfg.cap) hm2 (by rw [hdl]; omega)
  rw [hdl, firstZero_append_zero (fun b hb => hz b (List.mem_of_mem_drop hb))] at hf
  have hi : x.state.sc + (frame.drop x.state.sc).length = frame.length := by simp; omega
  simp only [Option.map_some, hi] at hf
  have hr1 : memReadRange x.state.cfg.cap (x.state.mem.writeAll x.state.wo c) 0 frame.length = .ok frame :=
    memReadRange_ok_iff.2 ⟨rfl, (Memory.Has.append.1 hm).1, fun _ => by omega⟩
  have hfin : x.state.wo + c.length - frame.length - 1 = rem.length := by omega
  have hr2 : memReadRange x.state.cfg.cap (x.state.mem.writeAll x.state.wo c) (frame.length + 1) rem.length = .ok rem := by
    refine memReadRange_ok_iff.2 ⟨rfl, ?_, fun _ => by omega⟩
    have := (Memory.Has.cons.1 (Memory.Has.append.1 hm).2).2
    rwa [Nat.zero_add] at this
  have hw : memWriteRange x.state.cfg.cap (x.state.mem.writeAll x.state.wo c) 0 rem
      = .ok ((x.state.mem.writeAll x.state.wo c).writeAll 0 rem) := memWriteRange_ok _ _ _ (by omega)
  simp only [absorb, memWriteRange_ok _ _ _ hc, hf, hr1, hfin, hr2, hw]

/-- The part of the invariants that is about the buffer and the registers COMPLETE works on (R38, R39 a). -/
structure BufOk (s : State) : Prop where
  sc_le     : s.sc ≤ s.wo
  wo_le     : s.wo ≤ s.cfg.cap
  scanned   : ∀ j, j < s.sc → s.mem.read j ≠ 0x00#8
  canonical : s.mem.wf
  inRange   : ∀ x ∈ s.mem, x.1 < s.cfg.cap

theorem State.Inv.bufOk {s : State} (h : s.Inv) : BufOk s :=
  ⟨h.sc_le, h.wo_le, h.scanned, h.canonical, h.inRange⟩

/-- The valid bytes of a good buffer, the scanned part zero-free. -/
theorem BufOk.live {s : State} (h : BufOk s) :
    ∃ live : Bytes, live.length = s.wo ∧ s.mem.Has 0 live ∧ ZeroFree (live.take s.sc) := by
  obtain ⟨live, hl, hh⟩ := s.mem.exists_has 0 s.wo
  refine ⟨live, hl, hh, fun b hb h0 => ?_⟩
  obtain ⟨j, hj, rfl⟩ := List.mem_iff_getElem.1 hb
  simp only [List.length_take] at hj
  have hsc := h.sc_le
  have h1 := hh j (by omega)
  rw [Nat.zero_add, List.getElem?_eq_getElem (by omega)] at h1
  refine h.scanned j (by omega) ?_
  rw [List.getElem_take] at h0
  exact (Option.some.inj h1).symm.trans h0

/-- Only the counters can tell `frameToPacket`'s state from the one it was given. -/
theorem frameToPacket_state (x : Progress) (frame : Bytes) :
    ∃ n, (frameToPacket x frame).state = { x.state with cnt := n } := by
  rcases frameToPacket_cases x frame with ⟨p, h⟩ | ⟨e, i, -, h⟩ <;> rw [h]
  · exact ⟨x.state.cnt, rfl⟩
  · exact ⟨x.state.cnt.incr e, rfl⟩

/-- A chunk that fits in a good buffer is processed, and the buffer is good afterwards. -/
theorem absorb_ok {x : Progress} (h : BufOk x.state) {c : Bytes} (hc : x.state.wo + c.length ≤ x.state.cfg.cap) :
    ∃ p, absorb x c = .ok p ∧ BufOk p.state := by
  obtain ⟨live, hl, hh, hsz⟩ := h.live
  have hin := Memory.inRange_writeAll h.inRange x.state.wo c hc
  rcases zero_split (live ++ c) with hz | ⟨frame, rem, he, hz⟩
  · refine ⟨_, absorb_wait hl hh h.sc_le hc hz, le_refl _, hc, fun j hj => ?_,
      Memory.wf_writeAll h.canonical _ _, hin⟩
    have h1 := (hl ▸ hh.writeAll_append c : (x.state.mem.writeAll x.state.wo c).Has 0 (live ++ c)) j
      (by simpa [hl] using hj)
    rw [Nat.zero_add] at h1
    exact fun h0 => hz _ (List.mem_of_getElem? h1) h0
  · refine ⟨_, absorb_extract hl hh h.sc_le hsz hc he hz, ?_⟩
    obtain ⟨n, hn⟩ := frameToPacket_state { x with state := { x.state with
      mem := (x.state.mem.writeAll x.state.wo c).writeAll 0 rem, wo := rem.length, sc := 0 } } frame
    rw [hn]
    have hlen : rem.length ≤ x.state.cfg.cap := by
      have := congrArg List.length he
      simp only [List.length_append, List.length_cons, hl] at this; omega
    exact ⟨Nat.zero_le _, hlen,
      fun j hj => absurd hj (Nat.not_lt_zero _), Memory.wf_writeAll (Memory.wf_writeAll h.canonical _ _) _ _,
      Memory.inRange_writeAll hin _ _ (by simpa using hlen)⟩

theorem BufOk.overflowed {x : Progress} (h : BufOk x.state) : BufOk (overflowed x).state :=
  ⟨le_refl _, Nat.zero_le _, fun _ hj => absurd hj (Nat.not_lt_zero _), h.canonical, h.inRange⟩

theorem BufOk.endHunt {s : State} (h : BufOk s) : BufOk s.endHunt :=
  ⟨h.sc_le, h.wo_le, h.scanned, h.canonical, h.inRange⟩

/-- A fact about the outcome of hunting, by the three ways a hunt goes on: the chunk ends, the rest fits, the rest
overflows again. -/
theorem huntOn_induct {motive : Progress → Bytes → Except Fault Processed → Prop}
    (ends : ∀ x, motive x [] (.ok x.noPacket))
    (skip : ∀ x b c r, motive x c r → motive x (b :: c) r)
    (again : ∀ x c r, motive (overflowed { x with state := x.state.endHunt }) c r → motive x (0x00#8 :: c) r)
    (fits : ∀ x c, x.state.wo + c.length ≤ x.state.cfg.cap →
      motive x (0x00#8 :: c) (absorb { x with state := x.state.endHunt } c))
    (x : Progress) (c : Bytes) : motive x c (huntOn x c) := by
  induction c generalizing x with
  | nil => exact ends x
  | cons b c ih =>
    simp only [huntOn]
    split
    · next hb =>
      subst hb
      split
      · exact again x c _ (ih _)
      · next hn => exact fits x c (Nat.not_lt.1 hn)
    · exact skip x b c _ (ih x)

theorem huntOn_ok {x : Progress} (h : BufOk x.state) (c : Bytes) :
    ∃ p, huntOn x c = .ok p ∧ BufOk p.state := by
  refine huntOn_induct (motive := fun x _ r => BufOk x.state → ∃ p, r = .ok p ∧ BufOk p.state)
    (fun x h => ⟨_, rfl, h⟩) (fun x b c r ih h => ih h) (fun x c r ih h => ih h.endHunt.overflowed)
    (fun x c hc h => ?_) x c h
  exact absorb_ok (x := { x with state := x.state.endHunt }) h.endHunt hc

/-- PROCESS never stops in a good buffer, and leaves a good buffer (R38, R62). -/
theorem process_ok {s : State} (h : BufOk s) (c : Bytes) : ∃ p, process s c = .ok p ∧ BufOk p.state := by
  simp only [process]
  split
  · exact huntOn_ok (x := { state := s, events := [] }) h c
  · split
    · exact huntOn_ok (x := overflowed { state := s, events := [] })
        (BufOk.overflowed (x := { state := s, events := [] }) h) c
    · next hn => exact absorb_ok (x := { state := s, events := [] }) h (Nat.not_lt.1 hn)

/-- PROCESS of a chunk that fits, while not hunting. -/
theorem process_fits {s : State} {c : Bytes} (hh : s.hunt = false) (hc : s.wo + c.length ≤ s.cfg.cap) :
    process s c = absorb { state := s, events := [] } c := by
  simp [process, hh, Nat.not_lt.2 hc]

/-- PROCESS while hunting. -/
theorem process_hunts {s : State} (hh : s.hunt = true) (c : Bytes) :
    process s c = huntOn { state := s, events := [] } c := by
  simp [process, hh]

/-- PROCESS of a chunk that would pass CAP, while not hunting. -/
theorem process_overflows {s : State} {c : Bytes} (hh : s.hunt = false) (hc : s.cfg.cap < s.wo + c.length) :
    process s c = huntOn (overflowed { state := s, events := [] }) c := by
  simp [process, hh, hc]

/-- The registers PROCESS never writes. -/
structure SameOutside (s t : State) : Prop where
  cfg        : t.cfg = s.cfg
  busy       : t.busy = s.busy
  pend       : t.pend = s.pend
  dropped    : t.cnt.busyDrop = s.cnt.busyDrop
  queue      : t.queue = s.queue
  agent      : t.agent = s.agent
  owner      : t.owner = s.owner
  deliveries : t.deliveries = s.deliveries

theorem SameOutside.refl (s : State) : SameOutside s s := ⟨rfl, rfl, rfl, rfl, rfl, rfl, rfl, rfl⟩

theorem SameOutside.trans {s t u : State} (h : SameOutside s t) (k : SameOutside t u) : SameOutside s u :=
  ⟨k.cfg.trans h.cfg, k.busy.trans h.busy, k.pend.trans h.pend, k.dropped.trans h.dropped, k.queue.trans h.queue,
    k.agent.trans h.agent, k.owner.trans h.owner, k.deliveries.trans h.deliveries⟩

theorem frameToPacket_outside (x : Progress) (frame : Bytes) :
    SameOutside x.state (frameToPacket x frame).state := by
  rcases frameToPacket_cases x frame with ⟨p, h⟩ | ⟨e, i, he, h⟩ <;> rw [h]
  · exact .refl _
  · rcases he with rfl | rfl | rfl <;> exact ⟨rfl, rfl, rfl, rfl, rfl, rfl, rfl, rfl⟩

theorem absorb_outside {x : Progress} {c : Bytes} {p : Processed} (h : absorb x c = .ok p) :
    SameOutside x.state p.state := by
  rcases absorb_cases h with ⟨m, rfl⟩ | ⟨m, r, frame, rfl⟩
  · exact ⟨rfl, rfl, rfl, rfl, rfl, rfl, rfl, rfl⟩
  · have := frameToPacket_outside { x with state := { x.state with mem := m, wo := r, sc := 0 } } frame
    exact ⟨this.1, this.2, this.3, this.4, this.5, this.6, this.7, this.8⟩

theorem huntOn_outside {x : Progress} {c : Bytes} {p : Processed} (h : huntOn x c = .ok p) :
    SameOutside x.state p.state := by
  refine huntOn_induct (motive := fun x _ r => ∀ p, r = .ok p → SameOutside x.state p.state)
    (fun x p h => by cases h; exact .refl _) (fun x b c r ih => ih)
    (fun x c r ih p h => ?_) (fun x c _ p h => ?_) x c p h
  · have := ih p h
    exact ⟨this.1, this.2, this.3, this.4, this.5, this.6, this.7, this.8⟩
  · have := absorb_outside h
    exact ⟨this.1, this.2, this.3, this.4, this.5, this.6, this.7, this.8⟩

/-- PROCESS writes BUF, WO, SC, HUNT and counters 1 to 4 only (R42, R163). -/
theorem process_outside {s : State} {c : Bytes} {p : Processed} (h : process s c = .ok p) :
    SameOutside s p.state := by
  simp only [process] at h
  split at h
  · exact huntOn_outside (x := { state := s, events := [] }) h
  · split at h
    · have := huntOn_outside (x := overflowed { state := s, events := [] }) h
      exact ⟨this.1, this.2, this.3, this.4, this.5, this.6, this.7, this.8⟩
    · exact absorb_outside (x := { state := s, events := [] }) h

/-- What COMPLETE answers: the outcome of PROCESS with the latch cleared and the owner answered. -/
theorem complete_next_iff {s t : State} :
    complete s = .next t ↔ ∃ p, process s s.pend = .ok p ∧
      t = p.state.unlatch.deliverTo s.owner (.chunk p.packet p.events) := by
  simp only [complete]
  cases process s s.pend with
  | error f => simp
  | ok p => simp [eq_comm]

/-- What a step does, by what comes next on the schedule. -/
theorem step_cases (s : State) :
    (s.queue = [] ∧ step s = (if s.busy then complete s else .next s)) ∨
    (∃ a w q, s.queue = .present a w :: q ∧ step s = exec (decode w) { s with queue := q, agent := a }) ∨
    (∃ q, s.queue = .complete :: q ∧
      step s = (if s.busy then complete { s with queue := q } else .next { s with queue := q })) ∨
    (∃ q, s.queue = .reconnect :: q ∧ step s = .next { s with queue := q }.recreate) := by
  rcases hq : s.queue with _ | ⟨_ | _ | _, q⟩
  · refine .inl ⟨rfl, ?_⟩
    cases hb : s.busy <;> simp [step, State.fetch, State.completeIfEnabled, hq, hb]
  · exact .inr (.inl ⟨_, _, q, rfl, by simp [step, State.fetch, hq]⟩)
  · refine .inr (.inr (.inl ⟨q, rfl, ?_⟩))
    cases hb : s.busy <;> simp [step, State.fetch, State.completeIfEnabled, hq, hb]
  · exact .inr (.inr (.inr ⟨q, rfl, by simp [step, State.fetch, hq]⟩))

end Sys2Proof.Machine
end

