-- ==== Sys2Proof/Tests/Slice0.lean ====
section
/-! SUPPORT. The model's own tests. Expected results are the vectors of spec/95_test_vectors.md and the examples of the
rules, named in each comment; then one witness per statement that has hypotheses. -/

namespace Sys2Proof.Tests

open Sys2Proof Sys2Proof.Machine

/-! ## Well-formedness: the check refuses -/

theorem test_illegal_must_not_be_a_command :
    (Instr.illegal [0x01#8]).wellFormed Config.reference = false := by decide
theorem test_run_code_is_not_zero : (Instr.run 0x00#8 []).wellFormed Config.reference = false := by decide
theorem test_run_code_is_not_full : (Instr.run 0xFF#8 []).wellFormed Config.reference = false := by decide
theorem test_unknown_kind_is_no_kind : (Instr.kindUnknown 0x04#8 []).wellFormed Config.reference = false := by decide
theorem test_capacity_is_positive : Config.wf { Config.reference with cap := 0 } = false := by decide
theorem test_kind_values_differ :
    Config.wf { Config.reference with kindMap := { KindMap.reference with input := 0x00#8 } } = false := by decide
theorem test_reference_configuration : Config.reference.wf = true := by decide

/-! ## Decoding: a word per constructor, from R82, R83, R84, R86 -/

theorem test_decode_chunk : decode [0x01#8, 0x02#8, 0x01#8] = .chunk [0x02#8, 0x01#8] := by decide
theorem test_decode_enc : decode [0x02#8, 0x11#8] = .enc [0x11#8] := by decide
theorem test_decode_dec : decode [0x03#8, 0x02#8, 0x11#8] = .dec [0x02#8, 0x11#8] := by decide
theorem test_decode_disc : decode [0x04#8] = .disc [] := by decide
theorem test_decode_build : decode [0x05#8, 0x04#8, 0x81#8] = .build 0x04#8 [0x81#8] := by decide
theorem test_decode_reset : decode [0x06#8] = .reset := by decide
theorem test_decode_rdcnt : decode [0x07#8, 0x01#8] = .rdcnt 0x01#8 := by decide
/-- V-IL1, V-IL3, V-IL5, V-IL7. -/
theorem test_decode_illegal :
    decode [] = .illegal [] ∧ decode [0x08#8] = .illegal [0x08#8] ∧ decode [0x05#8] = .illegal [0x05#8] ∧
    decode [0x07#8, 0x00#8, 0x00#8] = .illegal [0x07#8, 0x00#8, 0x00#8] := by decide
theorem test_decode_delim : decodeCode [0x00#8, 0x22#8] = some (.delim [0x22#8]) := by decide
theorem test_decode_run : decodeCode [0xFE#8, 0x11#8] = some (.run 0xFE#8 [0x11#8]) := by decide
theorem test_decode_full : decodeCode [0xFF#8] = some (.full []) := by decide
theorem test_decode_kindLog : decodeKind KindMap.reference [0x00#8] = some (.kindLog []) := by decide
theorem test_decode_kindVideo : decodeKind KindMap.reference [0x01#8, 0xFF#8] = some (.kindVideo [0xFF#8]) := by decide
theorem test_decode_kindSound : decodeKind KindMap.reference [0x02#8] = some (.kindSound []) := by decide
theorem test_decode_kindNetwork : decodeKind KindMap.reference [0x03#8] = some (.kindNetwork []) := by decide
theorem test_decode_kindInput : decodeKind KindMap.reference [0x04#8] = some (.kindInput []) := by decide
theorem test_decode_kindUnknown :
    decodeKind KindMap.reference [0x05#8, 0x01#8] = some (.kindUnknown 0x05#8 [0x01#8]) := by decide
/-- The zero operand byte a table word leaves out (log 10). -/
theorem test_decode_table_word :
    decodeTableWord 8 0x05 = some (.build 0x00#8 []) ∧ decodeTableWord 16 0x0407 = some (.rdcnt 0x04#8) := by decide

/-! ## The codec -/

/-- V-ENC4, V-ENC6, V-ENC10. -/
theorem test_enc : cobsEnc [0x11#8, 0x22#8, 0x00#8, 0x33#8] = [0x03#8, 0x11#8, 0x22#8, 0x02#8, 0x33#8] ∧
    cobsEnc [0x11#8, 0x00#8, 0x00#8, 0x00#8] = [0x02#8, 0x11#8, 0x01#8, 0x01#8, 0x01#8] ∧
    cobsEnc [0x00#8, 0x11#8, 0x00#8] = [0x01#8, 0x02#8, 0x11#8, 0x01#8] := by decide
/-- V-ENC18: a run of exactly 254, then a zero. -/
theorem test_enc_full_run : cobsEnc (List.replicate 254 0x01#8 ++ [0x00#8])
    = 0xFF#8 :: (List.replicate 254 0x01#8 ++ [0x01#8, 0x01#8]) := by decide +kernel
/-- V-DEC2, V-DEC4, V-DEC7, V-DEC10, V-DEC11. -/
theorem test_dec : cobsDec [0x00#8] = ([], false) ∧ cobsDec [0x01#8, 0x01#8] = ([0x00#8], false) ∧
    cobsDec [0x05#8, 0x11#8] = ([0x11#8], true) ∧ cobsDec [0x02#8, 0x11#8, 0x00#8, 0x22#8] = ([0x11#8], false) ∧
    cobsDec [0x03#8, 0x11#8, 0x00#8, 0x02#8, 0x22#8] = ([0x11#8, 0x00#8, 0x00#8, 0x22#8], false) := by decide
/-- V-DEC14: no implicit zero after a full block. -/
theorem test_dec_full_block : cobsDec (0xFF#8 :: (List.replicate 254 0x07#8 ++ [0x01#8]))
    = (List.replicate 254 0x07#8, false) := by decide +kernel

/-! ## One step of each command -/

/-- A block with `CAP = 8`, buffered bytes, all scanned. -/
def buffered (live : Bytes) : State :=
  { State.reset with
    cfg := { Config.reference with cap := 8 }
    mem := (live.mapIdx (fun i b => (i, b))).filter (fun x => decide (x.2 ≠ Memory.unlisted))
    wo := live.length
    sc := live.length }

/-- The same with a chunk in flight for agent 7. -/
def inFlight (live c : Bytes) : State := { buffered live with busy := true, pend := c, owner := 7 }

/-- What a step leaves of a state: WO, SC, BUSY, HUNT, the five counters, and the last response. -/
structure Seen where
  wo    : Nat
  sc    : Nat
  busy  : Bool
  hunt  : Bool
  cnt   : List Nat
  reply : Option Delivery
  deriving DecidableEq, Repr

/-- What can be seen of a step's next state. -/
def seen : Host.Outcome State Fault Refusal → Option Seen
  | .next t => some ⟨t.wo, t.sc, t.busy, t.hunt,
      [t.cnt.busyDrop, t.cnt.overflow, t.cnt.trunc, t.cnt.empty, t.cnt.unknownKind].map BitVec.toNat,
      t.deliveries.getLast?⟩
  | _ => none

/-- The step that presents a transaction by agent 3. -/
def present (s : State) (w : Bytes) : Host.Outcome State Fault Refusal := step { s with queue := [.present 3 w] }

/-- V-CH20: ACCEPT of `CHUNK [02 01]` from reset. -/
theorem test_chunk_accept : seen (present State.reset [0x01#8, 0x02#8, 0x01#8])
    = some ⟨0, 0, true, false, [0, 0, 0, 0, 0], none⟩ := by decide
/-- V-CH21: a chunk in the busy window. -/
theorem test_chunk_dropped : seen (present (inFlight [] [0x02#8, 0x01#8]) [0x01#8, 0x05#8, 0x05#8, 0x00#8])
    = some ⟨0, 0, true, false, [1, 0, 0, 0, 0], some ⟨3, .chunk none [⟨.busyDrop, none⟩]⟩⟩ := by decide
/-- V-CH9. -/
theorem test_complete_keeps_the_remainder : seen (step (inFlight [] [0x02#8, 0x01#8, 0x00#8, 0x03#8, 0x04#8]))
    = some ⟨2, 0, false, false, [0, 0, 0, 0, 0], some ⟨7, .chunk (some ⟨.video, []⟩) []⟩⟩ := by decide
/-- V-OV8: two overflows in one chunk. -/
theorem test_complete_overflows_twice :
    seen (step (inFlight [] ([0x01#8, 0x00#8] ++ List.replicate 9 0x03#8 ++ [0x00#8, 0x02#8, 0x03#8, 0x00#8])))
    = some ⟨0, 0, false, false, [0, 2, 0, 0, 0],
        some ⟨7, .chunk (some ⟨.network, []⟩) [⟨.overflow, none⟩, ⟨.overflow, none⟩]⟩⟩ := by decide
/-- V-OV4: the hunt goes on past the chunk. -/
theorem test_complete_goes_on_hunting :
    seen (step (inFlight (List.replicate 6 0x01#8) [0x01#8, 0x01#8, 0x01#8]))
    = some ⟨0, 0, false, true, [0, 1, 0, 0, 0], some ⟨7, .chunk none [⟨.overflow, none⟩]⟩⟩ := by decide
/-- V-CH23, V-CH5, V-CH2. -/
theorem test_complete_drops_bad_frames :
    seen (step (inFlight [0x02#8, 0x01#8] [0x33#8, 0x00#8]))
      = some ⟨0, 0, false, false, [0, 0, 1, 0, 0], some ⟨7, .chunk none [⟨.frameTruncated, none⟩]⟩⟩ ∧
    seen (step (inFlight [] [0x02#8, 0x05#8, 0x00#8]))
      = some ⟨0, 0, false, false, [0, 0, 0, 0, 1], some ⟨7, .chunk none [⟨.unknownKind, some 0x05#8⟩]⟩⟩ ∧
    seen (step (inFlight [] [0x00#8]))
      = some ⟨0, 0, false, false, [0, 0, 0, 1, 0], some ⟨7, .chunk none [⟨.frameEmpty, none⟩]⟩⟩ := by decide
/-- V-DI4, V-DI8. -/
theorem test_disc :
    seen (present State.reset [0x04#8, 0x01#8, 0xFF#8, 0xD8#8])
      = some ⟨0, 0, false, false, [0, 0, 0, 0, 0], some ⟨3, .disc (.ok ⟨.video, [0xFF#8, 0xD8#8]⟩)⟩⟩ ∧
    seen (present State.reset [0x04#8, 0x05#8])
      = some ⟨0, 0, false, false, [0, 0, 0, 0, 0], some ⟨3, .disc (.unknown 0x05#8)⟩⟩ := by decide
/-- V-BU4, V-BU2. -/
theorem test_build :
    seen (present State.reset [0x05#8, 0x00#8, 0x48#8, 0x69#8]) = some ⟨0, 0, false, false, [0, 0, 0, 0, 0],
      some ⟨3, .build .ok [0x01#8, 0x03#8, 0x48#8, 0x69#8, 0x00#8]⟩⟩ ∧
    seen (present State.reset [0x05#8, 0x00#8])
      = some ⟨0, 0, false, false, [0, 0, 0, 0, 0], some ⟨3, .build .ok [0x01#8, 0x01#8, 0x00#8]⟩⟩ := by decide
/-- V-BU8. -/
theorem test_build_bad_kind : seen (present State.reset [0x05#8, 0x05#8, 0x01#8])
    = some ⟨0, 0, false, false, [0, 0, 0, 0, 0], some ⟨3, .build .badKind []⟩⟩ := by decide
/-- V-RS2 and V-RS4: RESET in flight, with a trailing byte. -/
theorem test_reset : seen (present { inFlight [0x03#8, 0x01#8] [0x02#8, 0x00#8] with
      hunt := true, cnt := { Counters.zero with overflow := 2#32 } } [0x06#8, 0xAA#8])
    = some ⟨0, 0, false, false, [0, 0, 0, 0, 0], some ⟨3, .reset .ok⟩⟩ := by decide
/-- V-RD3, V-RD4. -/
theorem test_rdcnt :
    seen (present { State.reset with cnt := { Counters.zero with unknownKind := 1#32 } } [0x07#8, 0x04#8])
      = some ⟨0, 0, false, false, [0, 0, 0, 0, 1], some ⟨3, .rdcnt .ok 1#32⟩⟩ ∧
    seen (present State.reset [0x07#8, 0x05#8])
      = some ⟨0, 0, false, false, [0, 0, 0, 0, 0], some ⟨3, .rdcnt .badIndex 0#32⟩⟩ := by decide
/-- V-IL4. -/
theorem test_illegal : seen (present State.reset [0xFF#8, 0x01#8, 0x02#8])
    = some ⟨0, 0, false, false, [0, 0, 0, 0, 0], some ⟨3, .illegal .illegalCommand⟩⟩ := by decide
/-- The rows DELIM, RUN, FULL: V-DEC10, V-DEC9, V-DEC8 from their code byte on. -/
theorem test_code_rows :
    seen (exec (.delim [0x22#8]) State.reset)
      = some ⟨0, 0, false, false, [0, 0, 0, 0, 0], some ⟨0, .dec [] false⟩⟩ ∧
    seen (exec (.run 0x03#8 [0x11#8, 0x22#8, 0x02#8, 0x33#8]) State.reset)
      = some ⟨0, 0, false, false, [0, 0, 0, 0, 0], some ⟨0, .dec [0x11#8, 0x22#8, 0x00#8, 0x33#8] false⟩⟩ ∧
    seen (exec (.full [0x01#8, 0x02#8]) State.reset)
      = some ⟨0, 0, false, false, [0, 0, 0, 0, 0], some ⟨0, .dec [0x01#8, 0x02#8] true⟩⟩ := by decide
/-- The kind rows: V-DI3, V-DI5, V-DI9 from their kind byte on. -/
theorem test_kind_rows :
    seen (exec (.kindLog [0x48#8, 0x69#8]) State.reset)
      = some ⟨0, 0, false, false, [0, 0, 0, 0, 0], some ⟨0, .disc (.ok ⟨.log, [0x48#8, 0x69#8]⟩)⟩⟩ ∧
    seen (exec (.kindSound [0x00#8, 0x00#8]) State.reset)
      = some ⟨0, 0, false, false, [0, 0, 0, 0, 0], some ⟨0, .disc (.ok ⟨.sound, [0x00#8, 0x00#8]⟩)⟩⟩ ∧
    seen (exec (.kindUnknown 0xFF#8 [0x01#8]) State.reset)
      = some ⟨0, 0, false, false, [0, 0, 0, 0, 0], some ⟨0, .disc (.unknown 0xFF#8)⟩⟩ := by decide
/-- R64: least significant byte first. -/
theorem test_counter_bytes : counterBytes 0x01020304#32 = [0x04#8, 0x03#8, 0x02#8, 0x01#8] := by decide
/-- V-CH24: a counter wraps. -/
theorem test_counter_wraps : (Counters.incr { Counters.zero with busyDrop := 0xFFFFFFFF#32 } .busyDrop).busyDrop = 0#32 := by
  decide

/-! ## Witnesses: states that meet the hypotheses of the statements -/

theorem buffered_inv : (buffered [0x03#8, 0x11#8]).Inv := by constructor <;> decide
theorem inFlight_inv : (inFlight [0x03#8, 0x11#8] [0x22#8, 0x00#8, 0x05#8]).Inv := by constructor <;> decide

/-- A hunting block with a chunk in flight. -/
def hunting (c : Bytes) : State := { inFlight [] c with hunt := true }

theorem hunting_inv : (hunting [0x05#8, 0x00#8, 0x02#8, 0x03#8, 0x00#8]).Inv := by constructor <;> decide

/-- For EveryStepKeepsTheInvariant, NoStepStopsUnderTheInvariant, NoStepChangesTheConfiguration, OffsetsFitTheirWidth,
AnInFlightChunkIsCompletedWhenHostsRest, BytesAboveWoAreUnobservable. -/
theorem witness_step_under_inv : ∃ s t : State, s.Inv ∧ s.queue = [] ∧ s.busy = true ∧ step s = .next t ∧ SameBelowWo s s :=
  ⟨inFlight [0x03#8, 0x11#8] [0x22#8, 0x00#8, 0x05#8], _, inFlight_inv, rfl, rfl, rfl, rfl, fun _ _ => rfl⟩
/-- For BytesAboveWoAreUnobservable with two different buffers. -/
theorem witness_same_below_wo : ∃ s t : State, s.Inv ∧ s ≠ t ∧ SameBelowWo s t :=
  ⟨buffered [0x03#8, 0x11#8], { buffered [0x03#8, 0x11#8] with mem := [(0, 0x03#8), (1, 0x11#8), (2, 0x99#8)] },
    buffered_inv, by decide, rfl, by decide⟩
theorem witness_presented : ∃ (s : State) (a : Nat) (w : Bytes) (q : List Stimulus), s.queue = .present a w :: q :=
  ⟨{ State.reset with queue := [.present 1 [0x06#8]] }, 1, [0x06#8], [], rfl⟩
/-- For CompleteIsEnabledExactlyWhenBusy, its four clauses. -/
theorem witness_complete_clauses :
    (∃ (s : State) (q : List Stimulus), s.queue = .complete :: q ∧ s.busy = true) ∧
    (∃ (s : State) (q : List Stimulus), s.queue = .complete :: q ∧ s.busy = false) ∧
    (∃ s : State, s.queue = [] ∧ s.busy = true) ∧ (∃ s : State, s.queue = [] ∧ s.busy = false) :=
  ⟨⟨{ inFlight [] [] with queue := [.complete] }, [], rfl, rfl⟩,
    ⟨{ State.reset with queue := [.complete] }, [], rfl, rfl⟩, ⟨inFlight [] [], rfl, rfl⟩, ⟨State.reset, rfl, rfl⟩⟩
theorem witness_reconnect : ∃ (s : State) (q : List Stimulus), s.queue = .reconnect :: q :=
  ⟨{ inFlight [0x01#8] [0x02#8] with queue := [.reconnect, .complete] }, [.complete], rfl⟩
theorem witness_decode_encode : ∃ (cfg : Config) (i : Instr), cfg.wf = true ∧ i.wellFormed cfg = true ∧ i.space = .codeByte :=
  ⟨Config.reference, .run 0xFE#8 [0x01#8], by decide, by decide, rfl⟩
/-- For EncodeInvertsDecode: RESET with trailing bytes, and a code byte and a kind byte that decode. -/
theorem witness_encode_decode : decode [0x06#8, 0xAA#8] = .reset ∧ decodeCode [0x01#8] = some (.run 0x01#8 []) ∧
    decodeKind Config.reference.kindMap [0x05#8] = some (.kindUnknown 0x05#8 []) := by decide
/-- For EncEndsAFullRunWithAnEmptyBlock and DecInvertsEnc: one full block and two, behind a zero byte and behind nothing. -/
theorem witness_full_run :
    (∃ p run : Bytes, p ≠ [] ∧ p.getLast? = some 0x00#8 ∧ run ≠ [] ∧ run.length = 254 ∧ ZeroFree run) ∧
    (∃ p run : Bytes, p = [] ∧ run ≠ [] ∧ 254 ∣ run.length ∧ 254 < run.length ∧ ZeroFree run) :=
  ⟨⟨[0x11#8, 0x00#8], List.replicate 254 0x01#8, by decide, by decide, List.cons_ne_nil _ _, List.length_replicate,
      fun b hb => by rw [List.eq_of_mem_replicate hb]; decide⟩,
    ⟨[], List.replicate 508 0x01#8, rfl, List.cons_ne_nil _ _, by rw [List.length_replicate]; decide,
      by rw [List.length_replicate]; decide, fun b hb => by rw [List.eq_of_mem_replicate hb]; decide⟩⟩
/-- For DecReadsBlockByBlock and CodeByteRowsDecodeTheirBlock, at the bounds of the code byte. -/
theorem witness_code_bounds :
    ([] : Bytes).length + 1 = (0x01#8).toNat ∧ (List.replicate 253 0x07#8).length + 1 = (0xFE#8).toNat ∧
    (List.replicate 254 0x07#8).length + 1 = (0xFF#8).toNat ∧ ([] : Bytes).length + 1 < (0x02#8).toNat ∧
    (List.replicate 252 0x07#8).length + 1 < (0xFE#8).toNat ∧ (List.replicate 253 0x07#8).length < 254 := by
  simp only [List.length_replicate, List.length_nil]; decide
theorem witness_truncated : ∃ s out : Bytes, cobsDec s = (out, true) ∧ out ≠ [] :=
  ⟨[0x02#8, 0x11#8, 0x03#8, 0x22#8], [0x11#8, 0x00#8, 0x22#8], by decide, by decide⟩
/-- For DiscAnswersTheKindOfTheFirstByte and BuildAnswersTheFrameOrBadKind, at the bounds of their ranges. -/
theorem witness_kind_bounds : State.reset.cfg.kindMap = KindMap.reference ∧ 0x05#8 ≤ 0x05#8 ∧ 0x05#8 ≤ 0xFF#8 ∧
    0x04#8 ≤ 0x04#8 ∧ 0x04#8 < 0x05#8 ∧ 0x04#8 < 0xFF#8 := by decide
/-- For DiscFollowsTheKindMap and KindByteRowsAnswerTheirPacket, under another legal mapping. -/
theorem witness_other_kind_map : ∃ s : State, s.cfg.wf = true ∧ s.cfg.kindMap ≠ KindMap.reference ∧
    0x01#8 ∉ s.cfg.kindMap.values ∧ (Instr.kindUnknown 0x01#8 []).wellFormed s.cfg = true :=
  ⟨{ State.reset with cfg := { Config.reference with kindMap := { KindMap.reference with video := 0x80#8 } } },
    by decide, by decide, by decide, by decide⟩
theorem witness_payload : discriminate KindMap.reference [0x04#8, 0x81#8] = .ok ⟨.input, [0x81#8]⟩ := by decide
theorem witness_built_kind : 0x04#8 ∈ State.reset.cfg.kindMap.values := by decide
/-- For PureCommandsIgnoreTheReassembler: two states that differ in everything those commands must not read. -/
theorem witness_pure : ∃ s u : State, u.cfg = s.cfg ∧ u.agent = s.agent ∧ u.mem ≠ s.mem ∧ u.busy ≠ s.busy :=
  ⟨buffered [], inFlight [0x01#8] [0x02#8], rfl, rfl, by decide, by decide⟩
theorem witness_rdcnt_bounds : 0x04#8 < 0x05#8 ∧ 0x04#8 < 0xFF#8 := by decide
/-- For OtherCommandsAreIdempotentAndChangeNoState. -/
theorem witness_other_command : (∀ c, Instr.rdcnt 0x00#8 ≠ .chunk c) ∧ Instr.rdcnt 0x00#8 ≠ .reset := by
  constructor
  · intro c h; cases h
  · decide
/-- For EachCommandIsAnsweredOnce: exec answers a next state, and so does COMPLETE. -/
theorem witness_answers : (∃ t, exec (.chunk []) State.reset = .next t) ∧
    ∃ t, complete (inFlight [0x03#8, 0x11#8] [0x22#8, 0x00#8]) = .next t := ⟨⟨_, rfl⟩, ⟨_, rfl⟩⟩
/-- For AcceptLatchesOrDropsTheChunk and CountersCountTheEventsOfTheResponse. -/
theorem witness_accept : State.reset.busy = false ∧ (inFlight [] []).busy = true := by decide
/-- For AWaitingHostLosesNoChunk: two rounds, other agents before an ACCEPT and between it and its COMPLETE. -/
theorem witness_waiting_host : ∃ (s : State) (a : Nat) (rounds : List Round), s.Inv ∧ s.busy = false ∧
    (∀ r ∈ rounds, ∀ x ∈ r.before ++ r.between, Quiet x.2) ∧
    s.queue = rounds.flatMap (Round.schedule a) ++ [] ∧ rounds.length = 2 :=
  ⟨{ buffered [0x03#8, 0x11#8] with
        queue := [⟨[(2, [0x07#8, 0x00#8])], [0x22#8], [(2, [0x05#8, 0x00#8]), (1, [0x09#8])]⟩, ⟨[], [0x00#8], []⟩].flatMap
          (Round.schedule 1) },
    1, [⟨[(2, [0x07#8, 0x00#8])], [0x22#8], [(2, [0x05#8, 0x00#8]), (1, [0x09#8])]⟩, ⟨[], [0x00#8], []⟩],
    by constructor <;> decide, rfl, by
      intro r hr x hx
      have hc : ∀ w ∈ [[0x07#8, 0x00#8], [0x05#8, 0x00#8], [0x09#8]], Quiet w := by
        intro w hw
        simp only [List.mem_cons, List.not_mem_nil, or_false] at hw
        rcases hw with rfl | rfl | rfl
        · exact ⟨by decide, fun c h => by cases h⟩
        · exact ⟨by decide, fun c h => by cases h⟩
        · exact ⟨by decide, fun c h => by cases h⟩
      refine hc x.2 ?_
      simp only [List.mem_cons, List.not_mem_nil, or_false] at hr
      rcases hr with rfl | rfl
      · simp only [List.cons_append, List.nil_append, List.mem_cons, List.not_mem_nil, or_false] at hx
        rcases hx with rfl | rfl | rfl <;> simp
      · simp at hx,
    by simp, rfl⟩
theorem witness_unfinished_frame : ∃ (s : State) (live : Bytes), s.Inv ∧ s.busy = true ∧ s.hunt = false ∧ s.Holds live ∧
    s.wo + s.pend.length = s.cfg.cap ∧ ZeroFree (live ++ s.pend) :=
  ⟨inFlight [0x09#8, 0x11#8] (List.replicate 6 0x22#8), [0x09#8, 0x11#8], by constructor <;> decide, rfl, rfl, rfl, rfl, by
    unfold ZeroFree; decide⟩
/-- For CompleteExtractsTheFirstFrame, with a frame of each of its four outcomes. -/
theorem witness_first_frame : ∃ (s : State) (live frame rem : Bytes), s.Inv ∧ s.busy = true ∧ s.hunt = false ∧
    s.Holds live ∧ s.wo + s.pend.length ≤ s.cfg.cap ∧ live ++ s.pend = frame ++ 0x00#8 :: rem ∧ ZeroFree frame :=
  ⟨inFlight [0x03#8, 0x11#8] [0x22#8, 0x00#8, 0x05#8], [0x03#8, 0x11#8], [0x03#8, 0x11#8, 0x22#8], [0x05#8],
    inFlight_inv, rfl, rfl, rfl, by decide, rfl, by unfold ZeroFree; decide⟩
theorem witness_frame_outcomes : (cobsDec [0x05#8, 0x11#8]).2 = true ∧ cobsDec [] = ([], false) ∧
    cobsDec [0x02#8, 0x01#8] = ([0x01#8], false) ∧ KindMap.reference.kindOf? 0x01#8 = some .video ∧
    cobsDec [0x02#8, 0x05#8] = ([0x05#8], false) ∧ KindMap.reference.kindOf? 0x05#8 = none := by decide
/-- For OverflowDiscardsAndHuntsThroughTheChunk, OverflowExactlyWhenTheChunkPassesCap and CompleteFrame: one byte too many. -/
theorem witness_overflow : ∃ s : State, s.Inv ∧ s.hunt = false ∧ s.wo + s.pend.length = s.cfg.cap + 1 :=
  ⟨inFlight [0x09#8, 0x11#8] (List.replicate 7 0x22#8), by constructor <;> decide, rfl, rfl⟩
theorem witness_exact_fit : ∃ s : State, s.Inv ∧ s.hunt = false ∧ s.wo + s.pend.length = s.cfg.cap :=
  ⟨inFlight [0x09#8, 0x11#8] (List.replicate 6 0x22#8), by constructor <;> decide, rfl, rfl⟩
theorem witness_hunting_without_delimiter : ∃ s : State, s.hunt = true ∧ ZeroFree s.pend :=
  ⟨hunting [0x05#8], rfl, by unfold ZeroFree; decide⟩
theorem witness_hunting_with_delimiter : ∃ (s : State) (lost rest : Bytes), s.hunt = true ∧
    s.pend = lost ++ 0x00#8 :: rest ∧ ZeroFree lost :=
  ⟨hunting [0x05#8, 0x00#8, 0x02#8, 0x03#8, 0x00#8], [0x05#8], [0x02#8, 0x03#8, 0x00#8], rfl, rfl, by
    unfold ZeroFree; decide⟩
/-- For EmptyChunkDrainsOneFrame: a frame waiting in the remainder, no frame waiting, and hunting. -/
theorem witness_empty_chunk :
    (∃ s : State, s.Inv ∧ s.busy = true ∧ s.pend = [] ∧ s.Holds [0x02#8, 0x01#8, 0x00#8]) ∧
    (∃ s : State, s.Inv ∧ s.busy = true ∧ s.pend = [] ∧ s.Holds [0x03#8, 0x04#8] ∧ s.sc < s.wo) ∧
    (∃ s : State, s.Inv ∧ s.busy = true ∧ s.pend = [] ∧ s.Holds [] ∧ s.hunt = true) :=
  ⟨⟨{ inFlight [0x02#8, 0x01#8, 0x00#8] [] with sc := 0 }, by constructor <;> decide, rfl, rfl, rfl⟩,
    ⟨{ inFlight [0x03#8, 0x04#8] [] with sc := 0 }, by constructor <;> decide, rfl, rfl, rfl, by decide⟩,
    ⟨hunting [], by constructor <;> decide, rfl, rfl, rfl, rfl⟩⟩
/-- For ScanFindsTheFirstZeroFromTheCursor, with and without a zero. -/
theorem witness_scan : bufFirstZero 8 [(0, 0x00#8), (1, 0x11#8), (2, 0x00#8)] 1 2 = .ok (some 2) ∧
    bufFirstZero 8 [(0, 0x00#8), (1, 0x11#8)] 1 1 = .ok none := ⟨rfl, rfl⟩
/-- For EventsComeInTheOrderOfR269 and CompleteFrame: COMPLETE answers after an overflow. -/
theorem witness_complete_after_overflow : ∃ t,
    complete (inFlight (List.replicate 6 0x01#8) [0x01#8, 0x01#8, 0x00#8, 0x02#8]) = .next t := ⟨_, rfl⟩
theorem ready_reset : State.reset.Ready := ⟨rfl, rfl, rfl, rfl⟩
/-- For FragmentationDoesNotChangeTheAnswer: an empty chunk among the pieces. -/
theorem witness_fragments : ∃ (s : State) (e : Bytes) (init : List Bytes) (last : Bytes), s.Ready ∧ ZeroFree e ∧
    e.length + 1 ≤ s.cfg.cap ∧ (init ++ [last]).flatten = e ++ [0x00#8] ∧ last ≠ [] :=
  ⟨State.reset, [0x01#8, 0x03#8, 0x48#8, 0x69#8], [[0x01#8, 0x03#8], [], [0x48#8]], [0x69#8, 0x00#8], ready_reset, by
    unfold ZeroFree; decide, by decide, rfl, by decide⟩
theorem witness_loop_back : ∃ (s : State) (kind : Kind) (p : Bytes) (init : List Bytes) (last : Bytes), s.Ready ∧
    s.cfg.wf = true ∧ (buildFrame (s.cfg.kindMap.valueOf kind) p).length ≤ s.cfg.cap ∧
    (init ++ [last]).flatten = buildFrame (s.cfg.kindMap.valueOf kind) p ∧ last ≠ [] ∧
    s.queue = chunkSchedule 1 (init ++ [last]) ++ [] :=
  ⟨{ State.reset with queue := chunkSchedule 1 [[0x01#8, 0x03#8], [0x48#8, 0x69#8, 0x00#8]] }, .log, [0x48#8, 0x69#8],
    [[0x01#8, 0x03#8]], [0x48#8, 0x69#8, 0x00#8], ⟨rfl, rfl, rfl, rfl⟩, by decide, by decide, by decide, by decide, by simp⟩
/-- For BacklogIsDrainedInOrder: the three frames of program P2. -/
theorem witness_backlog : ∃ (s : State) (first : Packet) (others : List Packet), s.Ready ∧ s.cfg.wf = true ∧
    others.length = 2 ∧
    ((first :: others).flatMap (fun x => buildFrame (s.cfg.kindMap.valueOf x.kind) x.payload)).length ≤ s.cfg.cap ∧
    s.queue = chunkSchedule 1
      ((first :: others).flatMap (fun x => buildFrame (s.cfg.kindMap.valueOf x.kind) x.payload) ::
        List.replicate others.length []) ++ [] :=
  ⟨{ State.reset with queue := chunkSchedule 1 [[0x02#8, 0x01#8, 0x00#8, 0x01#8, 0x03#8, 0x48#8, 0x69#8, 0x00#8,
      0x03#8, 0x04#8, 0x81#8, 0x00#8], [], []] }, ⟨.video, []⟩, [⟨.log, [0x48#8, 0x69#8]⟩, ⟨.input, [0x81#8]⟩],
    ⟨rfl, rfl, rfl, rfl⟩, by decide, rfl, by decide, by decide⟩
theorem witness_resynchronise : ∃ (s : State) (lost : Bytes) (kind : Kind) (p : Bytes), s.Inv ∧ s.busy = true ∧
    s.hunt = true ∧ ZeroFree lost ∧ s.pend = lost ++ 0x00#8 :: buildFrame (s.cfg.kindMap.valueOf kind) p ∧
    (buildFrame (s.cfg.kindMap.valueOf kind) p).length ≤ s.cfg.cap :=
  ⟨hunting [0x05#8, 0x00#8, 0x02#8, 0x03#8, 0x00#8], [0x05#8], .network, [], hunting_inv, rfl, rfl, by
    unfold ZeroFree; decide, by decide, by decide⟩
/-- For BufferAccessesReadAndWriteOneByte, at both sides of CAP: a byte never written, and the last index. -/
theorem witness_buffer_bounds : 65535 < State.reset.cfg.cap ∧ State.reset.cfg.cap ≤ 65536 ∧
    memRead State.reset.cfg.cap State.reset.mem 65535 = .ok 0x00#8 := by decide
/-- Writing what an unlisted index reads as removes the entry, so that equal buffers are equal lists (log 5). -/
theorem test_write_keeps_the_form :
    Memory.write [(0, 0x11#8), (1, 0x22#8)] 0 0x00#8 = [(1, 0x22#8)] ∧ Memory.write [] 3 0x00#8 = [] ∧
    Memory.write [(2, 0x22#8)] 1 0x05#8 = [(1, 0x05#8), (2, 0x22#8)] := by decide
/-- For InvariantHoldsAtReset: a reset state whose BUF holds something. -/
theorem witness_reset_contents : ∃ m : Memory, m ≠ [] ∧ m.wf ∧ ∀ x ∈ m, x.1 < State.reset.cfg.cap :=
  ⟨[(0, 0xAA#8), (65535, 0x55#8)], by decide, by decide, by decide⟩
/-- R41: reset lists nothing, in canonical form. -/
theorem test_reset_memory : State.reset.mem.wf ∧ State.reset.mem = [] := by decide

end Sys2Proof.Tests
end

section
/-! SUPPORT. What an instruction can do (the inversion lemma of `exec`), and that no step writes the configuration
(00_scope.md R10). -/

namespace Sys2Proof.Machine

/-- What an instruction does: CHUNK latches (R161) or is dropped (R161), RESET clears (R240), and every other
instruction only responds (R66). -/
theorem exec_cases (i : Instr) (s : State) :
    (∃ c, i = .chunk c ∧ s.busy = false ∧ exec i s = .next (s.latch c)) ∨
    (∃ c, i = .chunk c ∧ s.busy = true ∧
      exec i s = .next ((s.count .busyDrop).respond (.chunk none [⟨.busyDrop, none⟩]))) ∨
    (i = .reset ∧ exec i s = .next (s.clear.respond (.reset .ok))) ∨
    ((∀ c, i ≠ .chunk c) ∧ i ≠ .reset ∧ ∃ r, exec i s = .next (s.respond r)) := by
  cases i with
  | chunk c =>
    cases hb : s.busy with
    | false => exact .inl ⟨c, rfl, rfl, by simp [exec, execChunk, hb]⟩
    | true => exact .inr (.inl ⟨c, rfl, rfl, by simp [exec, execChunk, hb]⟩)
  | reset => exact .inr (.inr (.inl ⟨rfl, rfl⟩))
  | _ => exact .inr (.inr (.inr ⟨nofun, nofun, _, rfl⟩))

theorem exec_cfg {i : Instr} {s t : State} (h : exec i s = .next t) : t.cfg = s.cfg := by
  obtain ⟨c, -, -, hs⟩ | ⟨c, -, -, hs⟩ | ⟨-, hs⟩ | ⟨-, -, r, hs⟩ := exec_cases i s <;>
    (rw [hs] at h; cases h; rfl)

theorem complete_cfg {s t : State} (h : complete s = .next t) : t.cfg = s.cfg := by
  obtain ⟨p, hp, rfl⟩ := complete_next_iff.1 h
  exact (process_outside hp).cfg

/-- COMPLETE where it is enabled, and holding where it is not (R162, R276), keep the configuration. -/
theorem completeOrHold_cfg {s t : State} (h : (if s.busy then complete s else .next s) = .next t) :
    t.cfg = s.cfg := by
  split at h
  · exact complete_cfg h
  · cases h; rfl

theorem step_cfg {s t : State} (h : step s = .next t) : t.cfg = s.cfg := by
  obtain ⟨-, hs⟩ | ⟨a, w, q, -, hs⟩ | ⟨q, -, hs⟩ | ⟨q, -, hs⟩ := step_cases s <;> rw [hs] at h
  · exact completeOrHold_cfg h
  · exact exec_cfg (s := { s with queue := q, agent := a }) h
  · exact completeOrHold_cfg (s := { s with queue := q }) h
  · cases h; rfl

/-- Settles O8: whatever comes next on the schedule, the step keeps the configuration. -/
theorem noStepChangesTheConfiguration : Obligations.NoStepChangesTheConfiguration :=
  fun _ _ => step_cfg

end Sys2Proof.Machine
end

section
/-! SUPPORT. The accesses to one byte of `BUF` at both sides of CAP (20_memory.md R62). -/

namespace Sys2Proof.Machine

theorem memRead_of_lt {cap a : Nat} (m : Memory) (h : a < cap) : memRead cap m a = .ok (m.read a) := if_pos h

theorem memWrite_of_lt {cap a : Nat} (m : Memory) (b : Byte) (h : a < cap) :
    memWrite cap m a b = .ok (m.write a b) := if_pos h

theorem memRead_of_ge {cap a : Nat} (m : Memory) (h : cap ≤ a) : memRead cap m a = .error (.bufOutOfRange a) :=
  if_neg (Nat.not_lt.2 h)

theorem memWrite_of_ge {cap a : Nat} (m : Memory) (b : Byte) (h : cap ≤ a) :
    memWrite cap m a b = .error (.bufOutOfRange a) := if_neg (Nat.not_lt.2 h)

/-- A write inside the buffer adds no entry outside it. -/
theorem Memory.inRange_write {m : Memory} {cap a : Nat} (h : ∀ x ∈ m, x.1 < cap) (b : Byte) (ha : a < cap) :
    ∀ x ∈ m.write a b, x.1 < cap := by
  intro x hx
  rcases Memory.mem_write hx with rfl | hx
  · exact ha
  · exact h x hx

/-- Settles O54: below CAP by the read-after-write lemma and the two that keep a buffer's form; at CAP and above by the
bounds test. -/
theorem bufferAccessesReadAndWriteOneByte : Obligations.BufferAccessesReadAndWriteOneByte := by
  intro cap m a b
  constructor
  · intro ha
    refine ⟨memRead_of_lt m ha, m.write a b, memWrite_of_lt m b ha, ?_, fun j hj => ?_, fun hm => ?_, fun hm => ?_⟩
    · rw [Memory.read_write, if_pos rfl]
    · rw [Memory.read_write, if_neg hj]
    · exact Memory.wf_write hm a b
    · exact Memory.inRange_write hm b ha
  · exact fun ha => ⟨memRead_of_ge m ha, memWrite_of_ge m b ha⟩

end Sys2Proof.Machine
end

section
/-! SUPPORT. `KIND_MAP` read backwards (30_encoding.md R83), and the discriminator in terms of it (42_packet.md R202). -/

namespace Sys2Proof

theorem Config.wf_iff {cfg : Config} : cfg.wf = true ↔ 1 ≤ cfg.cap ∧ cfg.kindMap.values.Nodup := by
  simp [Config.wf]

/-- The mapping read backwards undoes it, where different kinds have different values. -/
theorem KindMap.kindOf?_valueOf {km : KindMap} (h : km.values.Nodup) (kind : Kind) :
    km.kindOf? (km.valueOf kind) = some kind := by
  simp only [KindMap.values, List.nodup_cons, List.mem_cons, not_or] at h
  cases kind <;> simp [KindMap.kindOf?, KindMap.valueOf, Ne.symm, h]

/-- A byte names no kind exactly when it is the value of none (R203). -/
theorem KindMap.kindOf?_eq_none_iff {km : KindMap} {k : Byte} : km.kindOf? k = none ↔ k ∉ km.values := by
  simp [KindMap.kindOf?, KindMap.values, ite_eq_iff]

end Sys2Proof

namespace Sys2Proof.Machine

theorem discriminate_of_kind {km : KindMap} {k : Byte} {kind : Kind} (h : km.kindOf? k = some kind) (p : Bytes) :
    discriminate km (k :: p) = .ok ⟨kind, p⟩ := by
  simp [discriminate, h]

theorem discriminate_of_no_kind {km : KindMap} {k : Byte} (h : km.kindOf? k = none) (p : Bytes) :
    discriminate km (k :: p) = .unknown k := by
  simp [discriminate, h]

theorem exec_disc (m : Bytes) (s : State) :
    exec (.disc m) s = .next (s.respond (.disc (discriminate s.cfg.kindMap m))) := rfl

/-- Settles O24: a kind's value is read back as that kind, since the five values differ, and any other byte as none. -/
theorem discFollowsTheKindMap : Obligations.DiscFollowsTheKindMap := by
  intro s hwf
  obtain ⟨-, hnodup⟩ := Config.wf_iff.1 hwf
  constructor
  · intro kind p
    rw [exec_disc, discriminate_of_kind (KindMap.kindOf?_valueOf hnodup kind)]
    rfl
  · intro k p hk
    rw [exec_disc, discriminate_of_no_kind (KindMap.kindOf?_eq_none_iff.2 hk)]
    rfl

end Sys2Proof.Machine
end

section
/-! SUPPORT. PROCESS by its three ways in (41_reassembler.md R163), and the hunting clause of the invariants (10_state.md
R39 b) through it. -/

namespace Sys2Proof.Machine

/-- How PROCESS begins: hunting, overflowing, or with a chunk that fits. -/
theorem process_cases (s : State) (c : Bytes) :
    (s.hunt = true ∧ process s c = huntOn { state := s, events := [] } c) ∨
    (s.hunt = false ∧ s.cfg.cap < s.wo + c.length ∧
      process s c = huntOn (overflowed { state := s, events := [] }) c) ∨
    (s.hunt = false ∧ s.wo + c.length ≤ s.cfg.cap ∧ process s c = absorb { state := s, events := [] } c) := by
  cases hh : s.hunt with
  | true => exact .inl ⟨rfl, process_hunts hh c⟩
  | false =>
    rcases Nat.lt_or_ge s.cfg.cap (s.wo + c.length) with hc | hc
    · exact .inr (.inl ⟨rfl, hc, process_overflows hh hc⟩)
    · exact .inr (.inr ⟨rfl, hc, process_fits hh hc⟩)

/-- R39 b: hunting is done on an empty buffer. -/
def HuntsEmpty (s : State) : Prop := s.hunt = true → s.wo = 0 ∧ s.sc = 0

theorem absorb_hunt {x : Progress} {c : Bytes} {p : Processed} (h : absorb x c = .ok p) :
    p.state.hunt = x.state.hunt := by
  rcases absorb_cases h with ⟨m, rfl⟩ | ⟨m, r, frame, rfl⟩
  · rfl
  · obtain ⟨n, hn⟩ := frameToPacket_state { x with state := { x.state with mem := m, wo := r, sc := 0 } } frame
    rw [hn]

/-- Hunting from an empty buffer either ends the hunt or leaves the buffer empty. -/
theorem huntOn_huntsEmpty {x : Progress} {c : Bytes} {p : Processed} (hx : x.state.wo = 0 ∧ x.state.sc = 0)
    (h : huntOn x c = .ok p) : HuntsEmpty p.state := by
  refine huntOn_induct
    (motive := fun x _ r => x.state.wo = 0 ∧ x.state.sc = 0 → ∀ p, r = .ok p → HuntsEmpty p.state)
    (fun x hx p h => ?_) (fun x b c r ih => ih) (fun x c r ih _ => ih ⟨rfl, rfl⟩) (fun x c _ _ p h => ?_) x c hx p h
  · cases h
    exact fun _ => hx
  · intro hh
    have hend : p.state.hunt = false := absorb_hunt h
    rw [hend] at hh
    cases hh

theorem process_huntsEmpty {s : State} {c : Bytes} {p : Processed} (hs : HuntsEmpty s) (h : process s c = .ok p) :
    HuntsEmpty p.state := by
  obtain ⟨hh, e⟩ | ⟨-, -, e⟩ | ⟨hh, -, e⟩ := process_cases s c <;> rw [e] at h
  · exact huntOn_huntsEmpty (hs hh) h
  · exact huntOn_huntsEmpty ⟨rfl, rfl⟩ h
  · intro ht
    rw [absorb_hunt h, hh] at ht
    cases ht

end Sys2Proof.Machine
end

section
/-! SUPPORT. The parameters (00_scope.md R10): the reference is legal, and `OFS_W` holds CAP. -/

namespace Sys2Proof

theorem Config.reference_wf : Config.reference.wf = true := by decide

/-- `OFS_W` is the least width that holds CAP. -/
theorem Config.cap_lt_two_pow_iff {cfg : Config} (h : 1 ≤ cfg.cap) (w : Nat) : cfg.cap < 2 ^ w ↔ cfg.ofsW ≤ w :=
  (Nat.log2_lt (by omega)).symm

theorem Config.cap_lt_two_pow_ofsW (cfg : Config) : cfg.cap < 2 ^ cfg.ofsW := Nat.lt_log2_self

end Sys2Proof
end

section
/-! SUPPORT. The invariants of 10_state.md R38 and R39: which updates keep them, and that every step does. -/

namespace Sys2Proof.Machine

/-- The invariants do not speak of the counters, the schedule, the agent or the deliveries. -/
theorem State.Inv.of_eq {s t : State} (h : s.Inv)
    (e : t = { s with cnt := t.cnt, queue := t.queue, agent := t.agent, deliveries := t.deliveries }) : t.Inv := by
  rw [e]
  exact ⟨h.cfg, h.sc_le, h.wo_le, h.scanned, h.hunting, h.idle, h.canonical, h.inRange⟩

/-- An emptied block without a chunk meets the invariants, whatever its buffer holds. -/
theorem State.inv_of_empty {s : State} (hcfg : s.cfg.wf = true) (hwo : s.wo = 0) (hsc : s.sc = 0)
    (hidle : s.pend = [] ∧ s.owner = 0) (hm : s.mem.wf) (hr : ∀ x ∈ s.mem, x.1 < s.cfg.cap) : s.Inv where
  cfg := hcfg
  sc_le := by omega
  wo_le := by omega
  scanned := fun j hj => by omega
  hunting := fun _ => ⟨hwo, hsc⟩
  idle := fun _ => hidle
  canonical := hm
  inRange := hr

theorem State.Inv.latch {s : State} (h : s.Inv) (c : Bytes) : (s.latch c).Inv :=
  ⟨h.cfg, h.sc_le, h.wo_le, h.scanned, h.hunting, nofun, h.canonical, h.inRange⟩

theorem State.Inv.clear {s : State} (h : s.Inv) : s.clear.Inv :=
  State.inv_of_empty h.cfg rfl rfl ⟨rfl, rfl⟩ h.canonical h.inRange

theorem State.Inv.recreate {s : State} (h : s.Inv) : s.recreate.Inv :=
  State.inv_of_empty h.cfg rfl rfl ⟨rfl, rfl⟩ ⟨.nil, nofun⟩ nofun

theorem exec_inv {i : Instr} {s t : State} (h : s.Inv) (ht : exec i s = .next t) : t.Inv := by
  obtain ⟨c, -, -, hs⟩ | ⟨c, -, -, hs⟩ | ⟨-, hs⟩ | ⟨-, -, r, hs⟩ := exec_cases i s <;> (rw [hs] at ht; cases ht)
  · exact h.latch c
  · exact h.of_eq rfl
  · exact h.clear.of_eq rfl
  · exact h.of_eq rfl

/-- COMPLETE keeps the buffer good (R38, R39 a), hunts on an empty buffer only (R39 b) and clears the latch (R39 c). -/
theorem complete_inv {s t : State} (h : s.Inv) (ht : complete s = .next t) : t.Inv := by
  obtain ⟨p, hp, rfl⟩ := complete_next_iff.1 ht
  obtain ⟨p', hp', hbuf⟩ := process_ok h.bufOk s.pend
  cases hp.symm.trans hp'
  have hcfg : p.state.cfg.wf = true := (process_outside hp).cfg ▸ h.cfg
  exact ⟨hcfg, hbuf.sc_le, hbuf.wo_le, hbuf.scanned, process_huntsEmpty h.hunting hp, fun _ => ⟨rfl, rfl⟩,
    hbuf.canonical, hbuf.inRange⟩

theorem completeOrHold_inv {s t : State} (h : s.Inv) (ht : (if s.busy then complete s else .next s) = .next t) :
    t.Inv := by
  split at ht
  · exact complete_inv h ht
  · cases ht
    exact h

theorem step_inv {s t : State} (h : s.Inv) (ht : step s = .next t) : t.Inv := by
  obtain ⟨-, hs⟩ | ⟨a, w, q, -, hs⟩ | ⟨q, -, hs⟩ | ⟨q, -, hs⟩ := step_cases s <;> rw [hs] at ht
  · exact completeOrHold_inv h ht
  · exact exec_inv (h.of_eq rfl) ht
  · exact completeOrHold_inv (s := { s with queue := q }) (h.of_eq rfl) ht
  · cases ht
    exact State.Inv.recreate (s := { s with queue := q }) (h.of_eq rfl)

/-- Settles O3: every kind of step keeps `State.Inv`, and the named parts are its clauses. -/
theorem everyStepKeepsTheInvariant : Obligations.EveryStepKeepsTheInvariant := by
  intro s t h ht
  have hinv := step_inv h ht
  exact ⟨hinv, hinv.sc_le, hinv.wo_le, hinv.scanned, hinv.hunting, fun hb => (hinv.idle hb).1⟩

theorem Counters.get_zero (e : EventCode) : Counters.zero.get e = 0#32 := by cases e <;> rfl

/-- Settles O1: the values of R41; below `WO = 0` there is no byte for another buffer to differ in. -/
theorem resetGivesTheValuesOfR41 : Obligations.ResetGivesTheValuesOfR41 :=
  ⟨rfl, rfl, rfl, rfl, rfl, Counters.get_zero, fun _ => ⟨rfl, fun j hj => absurd hj (Nat.not_lt_zero j)⟩⟩

/-- Settles O2: reset is an emptied block, with the model's zeros or any other contents of BUF. -/
theorem invariantHoldsAtReset : Obligations.InvariantHoldsAtReset := by
  have hany : ∀ m : Memory, m.wf → (∀ x ∈ m, x.1 < State.reset.cfg.cap) → State.Inv { State.reset with mem := m } :=
    fun m => State.inv_of_empty (s := { State.reset with mem := m }) Config.reference_wf rfl rfl ⟨rfl, rfl⟩
  exact ⟨hany [] ⟨.nil, nofun⟩ nofun, hany⟩

/-- Settles O9: the invariants bound both offsets by CAP, which `OFS_W` bits hold. -/
theorem offsetsFitTheirWidth : Obligations.OffsetsFitTheirWidth := by
  refine ⟨fun s h => ?_, fun cfg h w => Config.cap_lt_two_pow_iff h w, by decide⟩
  have hcap := s.cfg.cap_lt_two_pow_ofsW
  exact ⟨h.wo_le.trans_lt hcap, (h.sc_le.trans h.wo_le).trans_lt hcap⟩

end Sys2Proof.Machine
end

section
/-! SUPPORT. When COMPLETE is taken (10_state.md R32, R162), and the commands that leave the reassembler alone (R40,
R223). -/

namespace Sys2Proof.Machine

theorem step_of_queue_nil {s : State} (h : s.queue = []) : step s = if s.busy then complete s else .next s := by
  simpa [h] using step_cases s

theorem step_of_queue_complete {s : State} {q : List Stimulus} (h : s.queue = .complete :: q) :
    step s = if s.busy then complete { s with queue := q } else .next { s with queue := q } := by
  simpa [h] using step_cases s

/-- Settles O6: both schedules that let COMPLETE run test BUSY first. -/
theorem completeIsEnabledExactlyWhenBusy : Obligations.CompleteIsEnabledExactlyWhenBusy := by
  refine ⟨fun s q hq hb => ?_, fun s q hq hb => ?_, fun s hq hb => ?_, fun s hq hb => ?_⟩
  · rw [step_of_queue_complete hq, hb]; rfl
  · rw [step_of_queue_complete hq, hb]; rfl
  · rw [step_of_queue_nil hq, hb]; rfl
  · rw [step_of_queue_nil hq, hb]; rfl

/-- ENC, DEC, DISC and BUILD answer from their operands and `KIND_MAP` alone. -/
theorem exec_pure {i : Instr} (h : ∃ d, i = .enc d ∨ i = .dec d ∨ i = .disc d ∨ ∃ k, i = .build k d) :
    ∃ f : KindMap → Response, ∀ s : State, exec i s = .next (s.respond (f s.cfg.kindMap)) := by
  obtain ⟨d, rfl | rfl | rfl | ⟨k, rfl⟩⟩ := h
  · exact ⟨fun _ => .enc (cobsEnc d), fun _ => rfl⟩
  · exact ⟨fun _ => decResponse (cobsDec d), fun _ => rfl⟩
  · exact ⟨fun km => .disc (discriminate km d), fun _ => rfl⟩
  · exact ⟨fun km => buildResponse km k d, fun _ => rfl⟩

/-- Settles O29: the response depends on the mapping, which both states share. -/
theorem pureCommandsIgnoreTheReassembler : Obligations.PureCommandsIgnoreTheReassembler := by
  intro i s u hi hcfg hagent
  obtain ⟨f, hf⟩ := exec_pure hi
  refine ⟨f s.cfg.kindMap, hf s, ?_⟩
  have hu := hf u
  rw [hcfg] at hu
  exact hagent ▸ hu

end Sys2Proof.Machine
end

section
/-! SUPPORT. The counters follow the events of a response (10_state.md R36, 60_exceptions.md R262). -/

namespace Sys2Proof.Machine

/-- Counters `m` are counters `n` and the events `evs`, modulo `2^32`. -/
def Tallied (n m : Counters) (evs : List Event) : Prop :=
  ∀ e, m.get e = n.get e + BitVec.ofNat 32 (eventCount e evs)

theorem Tallied.nil (n : Counters) : Tallied n n [] := fun e => by simp [eventCount]

theorem eventCount_append_one (e : EventCode) (evs : List Event) (v : Event) :
    eventCount e (evs ++ [v]) = eventCount e evs + if e = v.code then 1 else 0 := by
  by_cases h : v.code = e
  · simp [eventCount, h]
  · simp [eventCount, h, Ne.symm h]

/-- `raise` records an event and counts it (R262). -/
theorem Tallied.raise {n m : Counters} {evs : List Event} (h : Tallied n m evs) (v : Event) :
    Tallied n (m.incr v.code) (evs ++ [v]) := by
  intro e
  rw [Counters.get_incr, eventCount_append_one, h e]
  split
  · rw [BitVec.ofNat_add, BitVec.add_assoc]
  · rfl

theorem frameToPacket_tallied {n : Counters} {x : Progress} (h : Tallied n x.state.cnt x.events) (frame : Bytes) :
    Tallied n (frameToPacket x frame).state.cnt (frameToPacket x frame).events := by
  rcases frameToPacket_cases x frame with ⟨p, e⟩ | ⟨e, i, -, e'⟩
  · rw [e]; exact h
  · rw [e']; exact h.raise ⟨e, i⟩

theorem absorb_tallied {n : Counters} {x : Progress} {c : Bytes} {p : Processed}
    (hx : Tallied n x.state.cnt x.events) (h : absorb x c = .ok p) : Tallied n p.state.cnt p.events := by
  rcases absorb_cases h with ⟨m, rfl⟩ | ⟨m, r, frame, rfl⟩
  · exact hx
  · exact frameToPacket_tallied (x := { x with state := { x.state with mem := m, wo := r, sc := 0 } }) hx frame

theorem overflowed_tallied {n : Counters} {x : Progress} (h : Tallied n x.state.cnt x.events) :
    Tallied n (overflowed x).state.cnt (overflowed x).events := h.raise ⟨.overflow, none⟩

theorem huntOn_tallied {n : Counters} {x : Progress} {c : Bytes} {p : Processed}
    (hx : Tallied n x.state.cnt x.events) (h : huntOn x c = .ok p) : Tallied n p.state.cnt p.events := by
  refine huntOn_induct
    (motive := fun x _ r => Tallied n x.state.cnt x.events → ∀ p, r = .ok p → Tallied n p.state.cnt p.events)
    (fun x hx p h => ?_) (fun x b c r ih => ih) (fun x c r ih hx => ih ?_) (fun x c _ hx p h => ?_) x c hx p h
  · cases h
    exact hx
  · exact overflowed_tallied (x := { x with state := x.state.endHunt }) hx
  · exact absorb_tallied (x := { x with state := x.state.endHunt }) hx h

theorem process_tallied {s : State} {c : Bytes} {p : Processed} (h : process s c = .ok p) :
    Tallied s.cnt p.state.cnt p.events := by
  have hs : Tallied s.cnt (Progress.mk s []).state.cnt (Progress.mk s []).events := Tallied.nil s.cnt
  obtain ⟨-, e⟩ | ⟨-, -, e⟩ | ⟨-, -, e⟩ := process_cases s c <;> rw [e] at h
  · exact huntOn_tallied hs h
  · exact huntOn_tallied (overflowed_tallied hs) h
  · exact absorb_tallied hs h

theorem complete_tallied {s t : State} (h : complete s = .next t) :
    ∃ p evs, t.deliveries = s.deliveries ++ [⟨s.owner, .chunk p evs⟩] ∧ Tallied s.cnt t.cnt evs := by
  obtain ⟨p, hp, rfl⟩ := complete_next_iff.1 h
  refine ⟨p.packet, p.events, ?_, process_tallied hp⟩
  rw [State.deliverTo_deliveries, State.unlatch_deliveries, (process_outside hp).deliveries]

theorem exec_chunk_busy {s : State} (h : s.busy = true) (c : Bytes) :
    exec (.chunk c) s = .next ((s.count .busyDrop).respond (.chunk none [⟨.busyDrop, none⟩])) := by
  simpa [h] using exec_cases (.chunk c) s

theorem exec_chunk_idle {s : State} (h : s.busy = false) (c : Bytes) : exec (.chunk c) s = .next (s.latch c) := by
  simpa [h] using exec_cases (.chunk c) s

/-- Settles O45: `raise` is the only writer of the counters and of the events; an accepted CHUNK does neither. -/
theorem countersCountTheEventsOfTheResponse : Obligations.CountersCountTheEventsOfTheResponse := by
  refine ⟨fun s t => complete_tallied, fun c s hb => ?_, fun c s hb => ?_⟩
  · exact ⟨_, _, exec_chunk_busy hb c, rfl, (Tallied.nil s.cnt).raise ⟨.busyDrop, none⟩⟩
  · exact ⟨_, exec_chunk_idle hb c, rfl, fun _ => rfl⟩

end Sys2Proof.Machine
end

section
/-! SUPPORT. Where COMPLETE stores to BUF (20_memory.md R63, 41_reassembler.md R164, R167). -/

namespace Sys2Proof.Machine

/-- The stores of a pass whose chunk fits: the chunk at `WO`, and the remainder, if a frame is taken out, at 0. -/
theorem absorb_mem {x : Progress} {c : Bytes} {p : Processed} (h : absorb x c = .ok p) :
    (p.state.mem = x.state.mem.writeAll x.state.wo c ∧ p.state.wo = x.state.wo + c.length) ∨
    ∃ rem : Bytes, rem.length ≤ x.state.wo + c.length ∧ p.state.wo = rem.length ∧
      p.state.mem = (x.state.mem.writeAll x.state.wo c).writeAll 0 rem := by
  simp only [absorb] at h
  split at h
  · cases h
  · next m hm =>
    cases memWriteRange_eq hm
    split at h
    · cases h
    · cases h
      exact .inl ⟨rfl, rfl⟩
    · split at h
      · cases h
      · next frame _ =>
        split at h
        · cases h
        · next rem hrem =>
          obtain ⟨hlen, -, -⟩ := memReadRange_ok_iff.1 hrem
          split at h
          · cases h
          · next m' hm' =>
            cases memWriteRange_eq hm'
            cases h
            obtain ⟨n, hn⟩ := frameToPacket_state _ frame
            rw [hn]
            exact .inr ⟨rem, by omega, hlen.symm, rfl⟩

theorem absorb_wo_le {x : Progress} {c : Bytes} {p : Processed} (h : absorb x c = .ok p) :
    p.state.wo ≤ x.state.wo + c.length := by
  rcases absorb_mem h with ⟨-, hwo⟩ | ⟨rem, hlen, hwo, -⟩ <;> omega

/-- A chunk that fits changes no byte outside the chunk's place and the remainder's. -/
theorem absorb_read {x : Progress} {c : Bytes} {p : Processed} (h : absorb x c = .ok p) {a : Nat}
    (ha : a < x.state.wo ∨ x.state.wo + c.length ≤ a) (hwo : p.state.wo ≤ a) :
    p.state.mem.read a = x.state.mem.read a := by
  rcases absorb_mem h with ⟨hm, -⟩ | ⟨rem, -, hrem, hm⟩ <;> rw [hm]
  · exact Memory.read_writeAll_outside _ ha
  · rw [Memory.read_writeAll_outside _ (.inr (by omega)), Memory.read_writeAll_outside _ ha]

/-- Hunting stores below `WO + len(c)` only. -/
theorem huntOn_read {x : Progress} {c : Bytes} {p : Processed} (h : huntOn x c = .ok p) {a : Nat}
    (ha : x.state.wo + c.length ≤ a) : p.state.mem.read a = x.state.mem.read a := by
  refine huntOn_induct
    (motive := fun x c r => x.state.wo + c.length ≤ a → ∀ p, r = .ok p → p.state.mem.read a = x.state.mem.read a)
    (fun x _ p h => ?_) (fun x b c r ih ha => ih ?_) (fun x c r ih ha => ih ?_) (fun x c _ ha p h => ?_) x c ha p h
  · cases h
    rfl
  · rw [List.length_cons] at ha; omega
  · rw [List.length_cons] at ha
    simp only [overflowed_state, State.discard_wo]; omega
  · rw [List.length_cons] at ha
    have hin : x.state.endHunt.wo + c.length ≤ a := by rw [State.endHunt_wo]; omega
    exact absorb_read h (.inr hin) ((absorb_wo_le h).trans hin)

/-- PROCESS stores below `WO + len(c)` only. -/
theorem process_read_above {s : State} {c : Bytes} {p : Processed} (h : process s c = .ok p) {a : Nat}
    (ha : s.wo + c.length ≤ a) : p.state.mem.read a = s.mem.read a := by
  obtain ⟨-, e⟩ | ⟨-, -, e⟩ | ⟨-, -, e⟩ := process_cases s c <;> rw [e] at h
  · exact huntOn_read h ha
  · exact huntOn_read h (by simp only [overflowed_state, State.discard_wo]; omega)
  · exact absorb_read h (.inr ha) ((absorb_wo_le h).trans ha)

/-- Settles O46: the registers PROCESS never writes, and the store addresses of its three ways in. -/
theorem completeFrame : Obligations.CompleteFrame := by
  intro s t ht
  obtain ⟨p, hp, rfl⟩ := complete_next_iff.1 ht
  have hout := process_outside hp
  refine ⟨hout.cfg, hout.queue, hout.agent, hout.dropped, rfl, rfl, fun a ha _ => process_read_above hp ha,
    fun hh hc a ha hwo => ?_, fun hh hc a ha => ?_, fun hh hz a => ?_⟩
  · rw [process_fits hh hc] at hp
    exact absorb_read hp ha hwo
  · rw [process_overflows hh hc] at hp
    exact huntOn_read hp (by simpa using ha)
  · rw [process_hunts hh, huntOn_zeroFree _ hz] at hp
    cases hp
    rfl

end Sys2Proof.Machine
end

section
/-! SUPPORT. The encoding of any data has no 0x00 and is read back (40_codec.md R121, R133), and a built frame after the
lost one (41_reassembler.md R170). -/

namespace Sys2Proof.Machine

theorem cobsBlocks_length_le {d lits : Bytes} (h : lits ∈ cobsBlocksFrom [] d) : lits.length ≤ 254 :=
  (cobsBlocksFrom_block (by simp) (by simp) h).1

theorem cobsBlocks_zeroFree {d lits : Bytes} (h : lits ∈ cobsBlocksFrom [] d) : ZeroFree lits :=
  fun b hb => ((cobsBlocksFrom_block (by simp) (by simp) h).2 b hb).1

theorem blockBytes_zeroFree {lits : Bytes} (hl : lits.length ≤ 254) (hz : ZeroFree lits) :
    ZeroFree (blockBytes lits) := by
  intro b hb
  rcases List.mem_cons.1 hb with rfl | hb
  · exact codeByte_ne_zero hl
  · exact hz b hb

theorem cobsEnc_zeroFree (d : Bytes) : ZeroFree (cobsEnc d) := by
  intro b hb
  rw [cobsEnc_blocks] at hb
  obtain ⟨lits, hlits, hb⟩ := List.mem_flatMap.1 hb
  exact blockBytes_zeroFree (cobsBlocks_length_le hlits) (cobsBlocks_zeroFree hlits) b hb

theorem cobsDec_cobsEnc (d : Bytes) : cobsDec (cobsEnc d) = (d, false) := by
  rw [cobsEnc_blocks, cobsDec_blocks (fun _ => cobsBlocks_length_le), blocksData_cobsBlocksFrom _ _ (by simp)]
  rfl

/-- The encoded part of a built frame surfaces its packet, with no event (R168). -/
theorem frameToPacket_built {x : Progress} (h : x.state.cfg.wf = true) (kind : Kind) (p : Bytes) :
    frameToPacket x (cobsEnc (x.state.cfg.kindMap.valueOf kind :: p))
      = { state := x.state, events := x.events, packet := some ⟨kind, p⟩ } := by
  have hkind := KindMap.kindOf?_valueOf (Config.wf_iff.1 h).2 kind
  simp [frameToPacket, cobsDec_cobsEnc, discriminate_of_kind hkind]

/-- A built frame that arrives whole in an empty buffer surfaces its packet and leaves the buffer empty. -/
theorem absorb_built {x : Progress} (hcfg : x.state.cfg.wf = true) (hwo : x.state.wo = 0) (hsc : x.state.sc = 0)
    (kind : Kind) (p : Bytes)
    (hc : (buildFrame (x.state.cfg.kindMap.valueOf kind) p).length ≤ x.state.cfg.cap) :
    ∃ m, absorb x (buildFrame (x.state.cfg.kindMap.valueOf kind) p)
      = .ok { state := { x.state with mem := m, wo := 0, sc := 0 }, events := x.events, packet := some ⟨kind, p⟩ } := by
  have h := absorb_extract (x := x) (live := []) (c := buildFrame (x.state.cfg.kindMap.valueOf kind) p) (rem := [])
    (frame := cobsEnc (x.state.cfg.kindMap.valueOf kind :: p)) hwo.symm (Memory.Has.nil _ _) (by omega)
    (fun _ hb => by simp at hb) (by omega) rfl (cobsEnc_zeroFree _)
  exact ⟨_, h.trans (congrArg _ (frameToPacket_built (x := ⟨{ x.state with mem := _, wo := 0, sc := 0 }, x.events⟩)
    hcfg kind p))⟩

/-- Settles O52: the hunt drops the lost bytes and the delimiter (R170), and the frame after it fits the empty buffer. -/
theorem huntingBlockResynchronisesAtTheDelimiter : Obligations.HuntingBlockResynchronisesAtTheDelimiter := by
  intro s lost kind p h _ hh hz hpend hc
  obtain ⟨hwo, hsc⟩ := h.hunting hh
  have hfits : ¬ s.cfg.cap < s.wo + (buildFrame (s.cfg.kindMap.valueOf kind) p).length := by omega
  obtain ⟨m, hm⟩ := absorb_built (x := ⟨s.endHunt, []⟩) h.cfg hwo hsc kind p hc
  have hp := process_hunts hh s.pend
  rw [hpend, huntOn_lost _ hz, huntOn_zero, if_neg hfits, ← hpend] at hp
  exact ⟨_, complete_next_iff.2 ⟨_, hp.trans hm, rfl⟩, rfl, rfl, rfl, rfl, rfl⟩

end Sys2Proof.Machine
end

section
/-! SUPPORT. The commands that only respond (20_memory.md R66), and that every step answers (R62). -/

namespace Sys2Proof.Machine

/-- An instruction that is neither CHUNK nor RESET only responds, and its response depends neither on BUF nor on what
has been delivered. -/
theorem exec_responds {i : Instr} (hc : ∀ c, i ≠ .chunk c) (hr : i ≠ .reset) (s : State) :
    ∃ r, exec i s = .next (s.respond r) ∧ ∀ (m : Memory) (ds : List Delivery),
      exec i { s with mem := m, deliveries := ds } = .next (State.respond { s with mem := m, deliveries := ds } r) := by
  cases i with
  | chunk c => exact absurd rfl (hc c)
  | reset => exact absurd rfl hr
  | _ => exact ⟨_, rfl, fun _ _ => rfl⟩

theorem SameBlock.respond (s : State) (r : Response) : SameBlock s (s.respond r) :=
  ⟨rfl, rfl, rfl, rfl, rfl, rfl, rfl, rfl, rfl⟩

/-- Settles O32: the first response stands in the deliveries only, which the second does not depend on. -/
theorem otherCommandsAreIdempotentAndChangeNoState : Obligations.OtherCommandsAreIdempotentAndChangeNoState := by
  intro i s hc hr
  obtain ⟨r, hs, hagain⟩ := exec_responds hc hr s
  exact ⟨s.respond r, (s.respond r).respond r, r, hs, hagain s.mem (s.respond r).deliveries, .respond s r, .respond _ r,
    fun _ => rfl, fun _ => rfl, rfl, rfl, rfl, rfl⟩

theorem exec_answers (i : Instr) (s : State) : ∃ t, exec i s = .next t := by
  obtain ⟨c, -, -, hs⟩ | ⟨c, -, -, hs⟩ | ⟨-, hs⟩ | ⟨-, -, r, hs⟩ := exec_cases i s <;> exact ⟨_, hs⟩

/-- COMPLETE answers, since PROCESS makes no access outside a good buffer. -/
theorem complete_answers {s : State} (h : s.Inv) : ∃ t, complete s = .next t := by
  obtain ⟨p, hp, -⟩ := process_ok h.bufOk s.pend
  exact ⟨_, complete_next_iff.2 ⟨p, hp, rfl⟩⟩

theorem completeOrHold_answers {s : State} (h : s.Inv) : ∃ t, (if s.busy then complete s else .next s) = .next t := by
  split
  · exact complete_answers h
  · exact ⟨s, rfl⟩

/-- Settles O4: only COMPLETE accesses BUF, and the invariants hold where the step takes it. -/
theorem noStepStopsUnderTheInvariant : Obligations.NoStepStopsUnderTheInvariant := by
  intro s h
  obtain ⟨-, hs⟩ | ⟨a, w, q, -, hs⟩ | ⟨q, -, hs⟩ | ⟨q, -, hs⟩ := step_cases s <;> rw [hs]
  · exact completeOrHold_answers h
  · exact exec_answers _ _
  · exact completeOrHold_answers (s := { s with queue := q }) (h.of_eq rfl)
  · exact ⟨_, rfl⟩

end Sys2Proof.Machine
end

section
/-! SUPPORT. PROCESS with another buffer that reads the same below WO (20_memory.md R74). -/

namespace Sys2Proof.Machine

/-- `BUF[0..n)` is the same in both buffers. -/
def Memory.AgreesBelow (n : Nat) (m m' : Memory) : Prop := ∀ j, j < n → m'.read j = m.read j

theorem Memory.Has.of_agreesBelow {m m' : Memory} {bs : Bytes} (h : m.Has 0 bs)
    (ha : Memory.AgreesBelow bs.length m m') : m'.Has 0 bs := by
  intro j hj
  rw [Nat.zero_add, ha j hj]
  simpa using h j hj

theorem Memory.Has.agreesBelow {m m' : Memory} {bs : Bytes} (h : m.Has 0 bs) (h' : m'.Has 0 bs) :
    Memory.AgreesBelow bs.length m m' := by
  intro j hj
  simpa using (h' j hj).symm.trans (h j hj)

/-- Below index 0 there is nothing to agree on. -/
theorem Memory.agreesBelow_zero (m m' : Memory) : Memory.AgreesBelow 0 m m' := fun j hj => absurd hj (Nat.not_lt_zero j)

/-- A command in progress with another buffer. -/
def Progress.withMem (x : Progress) (m : Memory) : Progress := { x with state := { x.state with mem := m } }

@[simp] theorem Progress.withMem_cfg (x : Progress) (m : Memory) : (x.withMem m).state.cfg = x.state.cfg := rfl
@[simp] theorem Progress.withMem_wo (x : Progress) (m : Memory) : (x.withMem m).state.wo = x.state.wo := rfl

/-- A processed chunk with another buffer. -/
def Processed.withMem (p : Processed) (m : Memory) : Processed := { p with state := { p.state with mem := m } }

/-- Both runs of PROCESS answer, with the same packet, events and registers, and their buffers agree below WO. -/
def SameAnswer (r r' : Except Fault Processed) : Prop :=
  ∃ p m, r = .ok p ∧ r' = .ok (p.withMem m) ∧ Memory.AgreesBelow p.state.wo p.state.mem m

/-- FRAME_TO_PACKET does not access BUF. -/
theorem frameToPacket_withMem (x : Progress) (m : Memory) (frame : Bytes) :
    frameToPacket (x.withMem m) frame = (frameToPacket x frame).withMem m := by
  simp only [frameToPacket, Progress.withMem_cfg]
  split
  · rfl
  · split <;> rfl

/-- A chunk that fits: the frame and the remainder are read out of the live bytes and the chunk only. -/
theorem absorb_sameAnswer {x : Progress} {c : Bytes} {m : Memory} (h : BufOk x.state)
    (hc : x.state.wo + c.length ≤ x.state.cfg.cap) (hm : Memory.AgreesBelow x.state.wo x.state.mem m) :
    SameAnswer (absorb x c) (absorb (x.withMem m) c) := by
  obtain ⟨live, hl, hh, hsz⟩ := h.live
  have hh' : m.Has 0 live := hh.of_agreesBelow (hl ▸ hm)
  rcases zero_split (live ++ c) with hz | ⟨frame, rem, he, hz⟩
  · refine ⟨_, _, absorb_wait hl hh h.sc_le hc hz, absorb_wait (x := x.withMem m) hl hh' h.sc_le hc hz, ?_⟩
    have hagree := (hh.writeAll_append c).agreesBelow (hh'.writeAll_append c)
    rwa [List.length_append, hl] at hagree
  · refine ⟨_, _, absorb_extract hl hh h.sc_le hsz hc he hz,
      (absorb_extract (x := x.withMem m) hl hh' h.sc_le hsz hc he hz).trans
        (congrArg _ (frameToPacket_withMem ⟨{ x.state with mem := _, wo := _, sc := 0 }, x.events⟩ _ frame)), ?_⟩
    obtain ⟨n, hn⟩ := frameToPacket_state ⟨{ x.state with
      mem := (x.state.mem.writeAll x.state.wo c).writeAll 0 rem, wo := rem.length, sc := 0 }, x.events⟩ frame
    rw [hn]
    exact (Memory.has_writeAll _ 0 rem).agreesBelow (Memory.has_writeAll _ 0 rem)

/-- Hunting reads nothing of BUF, and after another overflow no byte is left to agree on. -/
theorem huntOn_sameAnswer {x : Progress} {m : Memory} (h : BufOk x.state)
    (hm : Memory.AgreesBelow x.state.wo x.state.mem m) (c : Bytes) :
    SameAnswer (huntOn x c) (huntOn (x.withMem m) c) := by
  induction c generalizing x with
  | nil => exact ⟨x.noPacket, m, rfl, rfl, hm⟩
  | cons b c ih =>
    by_cases hb : b = 0x00#8
    · subst hb
      rw [huntOn_zero, huntOn_zero, Progress.withMem_cfg, Progress.withMem_wo]
      split
      · exact ih (x := overflowed { x with state := x.state.endHunt })
          (BufOk.overflowed (x := { x with state := x.state.endHunt }) h.endHunt) (Memory.agreesBelow_zero _ _)
      · next hc => exact absorb_sameAnswer (x := { x with state := x.state.endHunt }) h.endHunt (Nat.not_lt.1 hc) hm
    · have hskip : ZeroFree [b] := by simpa [ZeroFree] using hb
      rw [← List.singleton_append, huntOn_lost x hskip, huntOn_lost _ hskip]
      exact ih h hm

theorem process_sameAnswer {s : State} {m : Memory} (h : BufOk s) (hm : Memory.AgreesBelow s.wo s.mem m) (c : Bytes) :
    SameAnswer (process s c) (process { s with mem := m } c) := by
  obtain ⟨hh, e⟩ | ⟨hh, hc, e⟩ | ⟨hh, hc, e⟩ := process_cases s c <;> rw [e]
  · rw [process_hunts (s := { s with mem := m }) hh]
    exact huntOn_sameAnswer (x := ⟨s, []⟩) h hm c
  · rw [process_overflows (s := { s with mem := m }) hh hc]
    exact huntOn_sameAnswer (x := overflowed ⟨s, []⟩) (BufOk.overflowed (x := ⟨s, []⟩) h)
      (Memory.agreesBelow_zero _ _) c
  · rw [process_fits (s := { s with mem := m }) hh hc]
    exact absorb_sameAnswer (x := ⟨s, []⟩) h hc hm

end Sys2Proof.Machine
end

section
/-! SUPPORT. No step tells apart two states that differ at or above WO only (20_memory.md R74). -/

namespace Sys2Proof.Machine

/-- Both steps answer, with states that R74 does not tell apart. -/
def SameNext (o o' : Host.Outcome State Fault Refusal) : Prop :=
  ∃ s t, o = .next s ∧ o' = .next t ∧ SameBelowWo s t

/-- The offset may only fall: the bytes below it still agree. -/
theorem SameBelowWo.of_agreesBelow {s : State} {m : Memory} {n : Nat} (hm : Memory.AgreesBelow n s.mem m)
    (hn : s.wo ≤ n) : SameBelowWo s { s with mem := m } :=
  ⟨rfl, fun j hj => hm j (hj.trans_le hn)⟩

theorem exec_sameNext (i : Instr) {s : State} {m : Memory} (hm : Memory.AgreesBelow s.wo s.mem m) :
    SameNext (exec i s) (exec i { s with mem := m }) := by
  obtain ⟨c, rfl, hb, hs⟩ | ⟨c, rfl, hb, hs⟩ | ⟨rfl, hs⟩ | ⟨hc, hr, -⟩ := exec_cases i s
  · exact ⟨_, _, hs, exec_chunk_idle (s := { s with mem := m }) hb c, .of_agreesBelow hm (le_refl _)⟩
  · exact ⟨_, _, hs, exec_chunk_busy (s := { s with mem := m }) hb c, .of_agreesBelow hm (le_refl _)⟩
  · exact ⟨_, _, hs, rfl, .of_agreesBelow hm (Nat.zero_le _)⟩
  · obtain ⟨r, hs, hs'⟩ := exec_responds hc hr s
    exact ⟨_, _, hs, hs' m s.deliveries, .of_agreesBelow hm (le_refl _)⟩

theorem complete_sameNext {s : State} {m : Memory} (h : s.Inv) (hm : Memory.AgreesBelow s.wo s.mem m) :
    SameNext (complete s) (complete { s with mem := m }) := by
  obtain ⟨p, m', hp, hp', hm'⟩ := process_sameAnswer h.bufOk hm s.pend
  exact ⟨_, _, complete_next_iff.2 ⟨p, hp, rfl⟩, complete_next_iff.2 ⟨_, hp', rfl⟩,
    .of_agreesBelow (s := p.state.unlatch.deliverTo s.owner (.chunk p.packet p.events)) hm' (le_refl _)⟩

theorem completeOrHold_sameNext {s : State} {m : Memory} (h : s.Inv) (hm : Memory.AgreesBelow s.wo s.mem m) :
    SameNext (if s.busy then complete s else .next s)
      (if s.busy then complete { s with mem := m } else .next { s with mem := m }) := by
  split
  · exact complete_sameNext h hm
  · exact ⟨_, _, rfl, rfl, .of_agreesBelow hm (le_refl _)⟩

theorem step_of_queue_present {s : State} {a : Nat} {w : Bytes} {q : List Stimulus} (h : s.queue = .present a w :: q) :
    step s = exec (decode w) { s with queue := q, agent := a } := by
  simpa [h] using step_cases s

theorem step_of_queue_reconnect {s : State} {q : List Stimulus} (h : s.queue = .reconnect :: q) :
    step s = .next { s with queue := q }.recreate := by
  simpa [h] using step_cases s

theorem step_sameNext {s : State} {m : Memory} (h : s.Inv) (hm : Memory.AgreesBelow s.wo s.mem m) :
    SameNext (step s) (step { s with mem := m }) := by
  obtain ⟨hq, hs⟩ | ⟨a, w, q, hq, hs⟩ | ⟨q, hq, hs⟩ | ⟨q, hq, hs⟩ := step_cases s <;> rw [hs]
  · rw [step_of_queue_nil (s := { s with mem := m }) hq]
    exact completeOrHold_sameNext h hm
  · rw [step_of_queue_present (s := { s with mem := m }) hq]
    exact exec_sameNext (decode w) (s := { s with queue := q, agent := a }) hm
  · rw [step_of_queue_complete (s := { s with mem := m }) hq]
    exact completeOrHold_sameNext (s := { s with queue := q }) (h.of_eq rfl) hm
  · rw [step_of_queue_reconnect (s := { s with mem := m }) hq]
    exact ⟨_, _, rfl, rfl, rfl, fun _ _ => rfl⟩

/-- Settles O47: the schedule is the same in both states, and each kind of step reads BUF below WO only. -/
theorem bytesAboveWoAreUnobservable : Obligations.BytesAboveWoAreUnobservable := by
  rintro s t h ⟨hrest, hbytes⟩
  rw [hrest]
  exact step_sameNext h hbytes

end Sys2Proof.Machine
end

section
/-! SUPPORT. Each decoder by the shape of the bytes it reads: the command space (30_encoding.md R84, R86, R87), the
code-byte space (R82) and the kind-byte space (R83). -/

namespace Sys2Proof

/-- What `decode` may read from a transaction: one of the seven commands with its operands, or, where the shape is no
command's, the transaction as it is (R84, R86, R242). -/
inductive ReadsCommand : Bytes → Instr → Prop
  | chunk (c : Bytes) : ReadsCommand (0x01#8 :: c) (.chunk c)
  | enc (d : Bytes) : ReadsCommand (0x02#8 :: d) (.enc d)
  | dec (d : Bytes) : ReadsCommand (0x03#8 :: d) (.dec d)
  | disc (m : Bytes) : ReadsCommand (0x04#8 :: m) (.disc m)
  | build (k : Byte) (p : Bytes) : ReadsCommand (0x05#8 :: k :: p) (.build k p)
  | reset (ignored : Bytes) : ReadsCommand (0x06#8 :: ignored) .reset
  | rdcnt (n : Byte) : ReadsCommand [0x07#8, n] (.rdcnt n)
  | illegal {w : Bytes} (h : commandShape w = false) : ReadsCommand w (.illegal w)

theorem decode_reads (w : Bytes) : ReadsCommand w (decode w) := by
  match w with
  | [] => exact .illegal rfl
  | op :: operand =>
    by_cases h1 : op = 0x01#8
    · subst h1; exact .chunk operand
    by_cases h2 : op = 0x02#8
    · subst h2; exact .enc operand
    by_cases h3 : op = 0x03#8
    · subst h3; exact .dec operand
    by_cases h4 : op = 0x04#8
    · subst h4; exact .disc operand
    by_cases h5 : op = 0x05#8
    · subst h5
      match operand with
      | [] => exact .illegal rfl
      | k :: p => exact .build k p
    by_cases h6 : op = 0x06#8
    · subst h6; exact .reset operand
    by_cases h7 : op = 0x07#8
    · subst h7
      match operand with
      | [] => exact .illegal rfl
      | [n] => exact .rdcnt n
      | _ :: _ :: _ => exact .illegal (by simp [commandShape])
    · have hop : ¬ (0x01#8 ≤ op ∧ op ≤ 0x07#8) := by bv_omega
      have hd : decode (op :: operand) = .illegal (op :: operand) := by simp [decode, *]
      rw [hd]
      exact .illegal (by simpa [commandShape, h5, h7] using hop)

/-- A transaction without a command's shape is read as illegal. -/
theorem ReadsCommand.eq_illegal {w : Bytes} {i : Instr} (h : ReadsCommand w i) (hw : commandShape w = false) :
    i = .illegal w := by
  cases h with
  | illegal => rfl
  | chunk | enc | dec | disc | build | reset | rdcnt => simp [commandShape] at hw

theorem ReadsCommand.wellFormed {w : Bytes} {i : Instr} (h : ReadsCommand w i) (cfg : Config) :
    i.wellFormed cfg = true := by
  cases h with
  | illegal hw => simp [Instr.wellFormed, hw]
  | chunk | enc | dec | disc | build | reset | rdcnt => rfl

/-- The transaction is the encoding of what is read, but that RESET's further bytes are dropped (R242). -/
theorem ReadsCommand.encode_eq {w : Bytes} {i : Instr} (h : ReadsCommand w i) (cfg : Config) :
    (i = .reset ∧ ∃ rest, w = 0x06#8 :: rest) ∨ (i ≠ .reset ∧ encode cfg i = w) := by
  cases h with
  | reset ignored => exact .inl ⟨rfl, ignored, rfl⟩
  | chunk | enc | dec | disc | build | rdcnt | illegal => exact .inr ⟨nofun, rfl⟩

/-- The row RUN is what is left between DELIM and FULL (R82). -/
theorem codeClass_eq_run_iff {c : Byte} : codeClass c = .run ↔ 0x01#8 ≤ c ∧ c ≤ 0xFE#8 := by
  have hc : (0x01#8 ≤ c ∧ c ≤ 0xFE#8) ↔ c ≠ 0x00#8 ∧ c ≠ 0xFF#8 := by
    constructor <;> intro h <;> bv_omega
  rw [hc, codeClass]
  by_cases h0 : c = 0x00#8
  · simp [h0]
  · by_cases hf : c = 0xFF#8
    · simp [hf, Config.delim]
    · simp [h0, hf]

/-- What `decodeCode` reads, by the code byte. -/
theorem decodeCode_eq_some_iff {w : Bytes} {i : Instr} :
    decodeCode w = some i ↔
      (∃ rest, w = 0x00#8 :: rest ∧ i = .delim rest) ∨
      (∃ c rest, (0x01#8 ≤ c ∧ c ≤ 0xFE#8) ∧ w = c :: rest ∧ i = .run c rest) ∨
      (∃ rest, w = 0xFF#8 :: rest ∧ i = .full rest) := by
  constructor
  · intro h
    match w with
    | [] => cases h
    | c :: rest =>
      by_cases h0 : c = 0x00#8
      · subst h0; cases h; exact .inl ⟨rest, rfl, rfl⟩
      by_cases hf : c = 0xFF#8
      · subst hf; cases h; exact .inr (.inr ⟨rest, rfl, rfl⟩)
      · have hrun : codeClass c = .run := by simp [codeClass, h0, hf]
        simp only [decodeCode, hrun, Option.some.injEq] at h
        exact .inr (.inl ⟨c, rest, codeClass_eq_run_iff.1 hrun, rfl, h.symm⟩)
  · rintro (⟨rest, rfl, rfl⟩ | ⟨c, rest, hc, rfl, rfl⟩ | ⟨rest, rfl, rfl⟩)
    · rfl
    · simp [decodeCode, codeClass_eq_run_iff.2 hc]
    · rfl

/-- The row of a kind (R83). -/
def kindRow : Kind → Bytes → Instr
  | .log => .kindLog
  | .video => .kindVideo
  | .sound => .kindSound
  | .network => .kindNetwork
  | .input => .kindInput

theorem encode_kindRow (cfg : Config) (kind : Kind) (p : Bytes) :
    encode cfg (kindRow kind p) = cfg.kindMap.valueOf kind :: p := by
  cases kind <;> rfl

theorem kindRow_wellFormed (cfg : Config) (kind : Kind) (p : Bytes) : (kindRow kind p).wellFormed cfg = true := by
  cases kind <;> rfl

theorem decodeKind_of_kind {km : KindMap} {k : Byte} {kind : Kind} (h : km.kindOf? k = some kind) (p : Bytes) :
    decodeKind km (k :: p) = some (kindRow kind p) := by
  cases kind <;> simp [decodeKind, h, kindRow]

theorem decodeKind_of_no_kind {km : KindMap} {k : Byte} (h : km.kindOf? k = none) (p : Bytes) :
    decodeKind km (k :: p) = some (.kindUnknown k p) := by
  simp [decodeKind, h]

/-- A byte that names a kind is its value. -/
theorem KindMap.valueOf_of_kindOf? {km : KindMap} {k : Byte} {kind : Kind} (h : km.kindOf? k = some kind) :
    km.valueOf kind = k := by
  cases kind <;> simp [KindMap.kindOf?, ite_eq_iff] at h <;> simp [KindMap.valueOf, h]

theorem decodeKind_kindRow {cfg : Config} (h : cfg.wf = true) (kind : Kind) (p : Bytes) :
    decodeKind cfg.kindMap (encode cfg (kindRow kind p)) = some (kindRow kind p) := by
  rw [encode_kindRow]
  exact decodeKind_of_kind (KindMap.kindOf?_valueOf (Config.wf_iff.1 h).2 kind) p

/-- Settles O12: the encoder writes the shape each decoder tells the instruction by; an illegal transaction and an unknown
kind byte are told by having no other row's shape, which well-formedness says. -/
theorem decodeInvertsEncode : Obligations.DecodeInvertsEncode := by
  intro cfg i hcfg hi
  cases i with
  | chunk | enc | dec | disc | build | reset | rdcnt => rfl
  | illegal w =>
    have hw : commandShape w = false := by simpa [Instr.wellFormed] using hi
    exact congrArg some ((decode_reads w).eq_illegal hw)
  | delim rest => exact decodeCode_eq_some_iff.2 (.inl ⟨rest, rfl, rfl⟩)
  | run c rest =>
    exact decodeCode_eq_some_iff.2 (.inr (.inl ⟨c, rest, by simpa [Instr.wellFormed] using hi, rfl, rfl⟩))
  | full rest => exact decodeCode_eq_some_iff.2 (.inr (.inr ⟨rest, rfl, rfl⟩))
  | kindLog p => exact decodeKind_kindRow hcfg .log p
  | kindVideo p => exact decodeKind_kindRow hcfg .video p
  | kindSound p => exact decodeKind_kindRow hcfg .sound p
  | kindNetwork p => exact decodeKind_kindRow hcfg .network p
  | kindInput p => exact decodeKind_kindRow hcfg .input p
  | kindUnknown k rest =>
    have hk : k ∉ cfg.kindMap.values := by simpa [Instr.wellFormed] using hi
    exact decodeKind_of_no_kind (KindMap.kindOf?_eq_none_iff.2 hk) rest

theorem encode_of_decodeCode {w : Bytes} {i : Instr} (cfg : Config) (h : decodeCode w = some i) :
    i.wellFormed cfg = true ∧ encode cfg i = w := by
  obtain ⟨rest, rfl, rfl⟩ | ⟨c, rest, hc, rfl, rfl⟩ | ⟨rest, rfl, rfl⟩ := decodeCode_eq_some_iff.1 h
  · exact ⟨rfl, rfl⟩
  · exact ⟨decide_eq_true hc, rfl⟩
  · exact ⟨rfl, rfl⟩

theorem encode_of_decodeKind {cfg : Config} {w : Bytes} {i : Instr} (h : decodeKind cfg.kindMap w = some i) :
    i.wellFormed cfg = true ∧ encode cfg i = w := by
  match w with
  | [] => cases h
  | k :: p =>
    cases hk : cfg.kindMap.kindOf? k with
    | none =>
      cases (decodeKind_of_no_kind hk p).symm.trans h
      exact ⟨by simpa [Instr.wellFormed] using KindMap.kindOf?_eq_none_iff.1 hk, rfl⟩
    | some kind =>
      cases (decodeKind_of_kind hk p).symm.trans h
      exact ⟨kindRow_wellFormed cfg kind p, by rw [encode_kindRow, KindMap.valueOf_of_kindOf? hk]⟩

/-- Settles O13: by what each decoder reads. -/
theorem encodeInvertsDecode : Obligations.EncodeInvertsDecode :=
  ⟨fun cfg w => ⟨(decode_reads w).wellFormed cfg, (decode_reads w).encode_eq cfg⟩, fun cfg _ _ => encode_of_decodeCode cfg,
    fun _ _ _ => encode_of_decodeKind⟩

end Sys2Proof
end

section
/-! SUPPORT. `F(d)` of 40_codec.md R90 by the runs of the data, and the encoded length block by block. -/

namespace Sys2Proof.Machine

theorem fullRuns_of_zeroFree {run : Bytes} (h : ZeroFree run) : fullRuns run = run.length / 254 := by
  rw [fullRuns, List.splitOn_eq_singleton (fun h0 => h _ h0 rfl)]; simp

theorem fullRuns_append_zero {run : Bytes} (h : ZeroFree run) (d : Bytes) :
    fullRuns (run ++ 0x00#8 :: d) = run.length / 254 + fullRuns d := by
  rw [fullRuns, List.splitOn_append_cons_self_of_not_mem (fun h0 => h _ h0 rfl), List.map_cons, List.sum_cons, fullRuns]

/-- A full block's literals add one to `F`, whatever comes after them. -/
theorem fullRuns_append_full {lits : Bytes} (h : ZeroFree lits) (hl : lits.length = 254) (d : Bytes) :
    fullRuns (lits ++ d) = 1 + fullRuns d := by
  have hlen : ∀ run : Bytes, (lits ++ run).length / 254 = 1 + run.length / 254 := fun run => by
    rw [List.length_append, hl]; omega
  have hfree : ∀ {run : Bytes}, ZeroFree run → ZeroFree (lits ++ run) := fun hrun b hb =>
    (List.mem_append.1 hb).elim (h b) (hrun b)
  rcases zero_split d with hd | ⟨run, rest, rfl, hrun⟩
  · rw [fullRuns_of_zeroFree (hfree hd), hlen, fullRuns_of_zeroFree hd]
  · rw [← List.append_assoc, fullRuns_append_zero (hfree hrun), hlen, fullRuns_append_zero hrun, Nat.add_assoc]

theorem ZeroFree.snoc {run : Bytes} (h : ZeroFree run) {b : Byte} (hb : b ≠ 0x00#8) : ZeroFree (run ++ [b]) := by
  intro c hc
  rcases List.mem_append.1 hc with hc | hc
  · exact h c hc
  · rwa [List.mem_singleton.1 hc]

/-- Each run counts once for every 254 of its bytes, so `F` is at most a 254th of the data. -/
theorem fullRuns_le {run : Bytes} (h : ZeroFree run) (d : Bytes) :
    254 * fullRuns (run ++ d) ≤ run.length + d.length := by
  induction d generalizing run with
  | nil =>
    rw [List.append_nil, fullRuns_of_zeroFree h]
    exact Nat.mul_div_le _ _
  | cons b d ih =>
    by_cases hb : b = 0x00#8
    · have hrest := ih (run := []) (by simp [ZeroFree])
      rw [hb, fullRuns_append_zero h]
      simp only [List.nil_append, List.length_nil, List.length_cons] at hrest ⊢
      omega
    · have hmore := ih (h.snoc hb)
      simp only [List.append_assoc, List.singleton_append, List.length_append, List.length_cons,
        List.length_nil] at hmore ⊢
      omega

theorem length_blockBytes (lits : Bytes) : (blockBytes lits).length = lits.length + 1 := rfl

/-- The encoded length when `run` is in the open block: one code byte more than the data, and one for each full block. -/
theorem length_cobsBlocksFrom {run : Bytes} (h : ZeroFree run) (hl : run.length < 254) (d : Bytes) :
    ((cobsBlocksFrom run d).flatMap blockBytes).length = run.length + d.length + 1 + fullRuns (run ++ d) := by
  induction d generalizing run with
  | nil =>
    rw [cobsBlocksFrom, List.flatMap_singleton, length_blockBytes, List.append_nil, fullRuns_of_zeroFree h,
      Nat.div_eq_of_lt hl, List.length_nil]
  | cons b d ih =>
    have hempty := ih (run := []) (by simp [ZeroFree]) (by simp)
    simp only [List.nil_append, List.length_nil] at hempty
    by_cases hb : b = 0x00#8
    · rw [hb, fullRuns_append_zero h, cobsBlocksFrom, if_pos rfl, List.flatMap_cons, List.length_append, hempty,
        length_blockBytes, List.length_cons]
      omega
    · by_cases hfull : run.length + 1 = 254
      · rw [List.append_cons, fullRuns_append_full (h.snoc hb) (by simpa using hfull), cobsBlocksFrom, if_neg hb,
          if_pos hfull, List.flatMap_cons, List.length_append, hempty, length_blockBytes, List.length_append,
          List.length_cons, List.length_cons, List.length_nil]
        omega
      · have hmore := ih (h.snoc hb) (by simp; omega)
        rw [List.append_cons, cobsBlocksFrom, if_neg hb, if_neg hfull, hmore, List.length_append, List.length_cons,
          List.length_cons, List.length_nil]
        omega

theorem length_cobsEnc (d : Bytes) : (cobsEnc d).length = d.length + 1 + fullRuns d := by
  rw [cobsEnc_blocks, length_cobsBlocksFrom (by simp [ZeroFree]) (by simp)]
  simp

theorem length_cobsEnc_le (d : Bytes) : (cobsEnc d).length ≤ 1 + (d.length * 255 + 253) / 254 := by
  have hruns : 254 * fullRuns d ≤ d.length := by simpa using fullRuns_le (run := []) (by simp [ZeroFree]) d
  rw [length_cobsEnc]
  omega

theorem length_buildFrame (k : Byte) (p : Bytes) : (buildFrame k p).length = p.length + 3 + fullRuns (k :: p) := by
  rw [buildFrame, List.length_append, length_cobsEnc, List.length_cons, List.length_singleton]
  omega

/-- Settles O17: the exact length by blocks, its bound by `F`'s, and the frame's length with the delimiter added. -/
theorem encodedAndFrameLengthsAreExact : Obligations.EncodedAndFrameLengthsAreExact :=
  ⟨fun d => ⟨length_cobsEnc d, length_cobsEnc_le d⟩, length_buildFrame⟩

end Sys2Proof.Machine
end

section
/-! SUPPORT. The code-byte rows (30_encoding.md R82) as the DEC of their bytes (40_codec.md R130), and DEC of one block,
whole or cut short. -/

namespace Sys2Proof.Machine

/-- A block with all its literals: they are copied, and what follows is decoded, after an implicit 0x00 unless the block
is full. -/
theorem cobsDec_whole_block {c : Byte} {lits : Bytes} (h : lits.length + 1 = c.toNat) (rest : Bytes) :
    cobsDec (c :: (lits ++ rest)) =
      if rest = [] ∨ rest.head? = some 0x00#8 then (lits, false)
      else (lits ++ ((if c = 0xFF#8 then [] else [0x00#8]) ++ (cobsDec rest).1), (cobsDec rest).2) := by
  have hc : c ≠ 0x00#8 := by rintro rfl; simp at h
  have hfull : c.toNat = 255 ↔ c = 0xFF#8 := BitVec.toNat_inj (y := 0xFF#8)
  rw [cobsDec_cons hc, show c.toNat - 1 = lits.length by omega, decLoop_literals, decLoop_boundary]
  simp only [hfull]
  split
  · simp
  · rfl

/-- A block cut short: its literals, and truncated (R132). -/
theorem cobsDec_short_block {c : Byte} {short : Bytes} (h : short.length + 1 < c.toNat) :
    cobsDec (c :: short) = (short, true) := by
  have hc : c ≠ 0x00#8 := by rintro rfl; simp at h
  rw [cobsDec_cons hc, decLoop_short _ _ _ (by omega)]

theorem exec_dec (d : Bytes) (s : State) : exec (.dec d) s = .next (s.respond (decResponse (cobsDec d))) := rfl

theorem exec_delim (rest : Bytes) (s : State) : exec (.delim rest) s = exec (.dec (0x00#8 :: rest)) s := rfl

theorem exec_run {c : Byte} (h : 0x01#8 ≤ c ∧ c ≤ 0xFE#8) (rest : Bytes) (s : State) :
    exec (.run c rest) s = exec (.dec (c :: rest)) s := by
  have hc : c ≠ 0x00#8 := by rintro rfl; exact absurd h (by decide)
  rw [exec_dec, cobsDec_cons hc]
  rfl

theorem exec_full (rest : Bytes) (s : State) : exec (.full rest) s = exec (.dec (0xFF#8 :: rest)) s := rfl

/-- A row of the code-byte space answers what DEC of its bytes answers. -/
theorem exec_codeRow {cfg : Config} {i : Instr} (hi : i.space = .codeByte) (hw : i.wellFormed cfg = true) (s : State) :
    exec i s = exec (.dec (encode cfg i)) s := by
  cases i with
  | delim rest => exact exec_delim rest s
  | run c rest => exact exec_run (by simpa [Instr.wellFormed] using hw) rest s
  | full rest => exact exec_full rest s
  | _ => cases hi

/-- Settles O22: a row answers what DEC of its bytes does, and those are a whole block or one cut short. -/
theorem codeByteRowsDecodeTheirBlock : Obligations.CodeByteRowsDecodeTheirBlock := by
  intro s
  refine ⟨fun rest => rfl, fun c lits rest h1 h2 hl => ?_, fun c short h1 h2 hs => ?_, fun lits rest hl => ?_,
    fun short hs => ?_, fun cfg i hi hw => exec_codeRow hi hw s⟩
  · have hc : c ≠ 0xFF#8 := by rintro rfl; exact absurd h2 (by decide)
    rw [exec_run ⟨h1, h2⟩, exec_dec, cobsDec_whole_block hl, if_neg hc]
    split <;> rfl
  · rw [exec_run ⟨h1, h2⟩, exec_dec, cobsDec_short_block hs]
    rfl
  · have hfull : lits.length + 1 = (0xFF#8 : Byte).toNat := by rw [hl]; rfl
    rw [exec_full, exec_dec, cobsDec_whole_block hfull, if_pos rfl]
    split <;> rfl
  · have hfull : short.length + 1 < (0xFF#8 : Byte).toNat := Nat.succ_lt_succ hs
    rw [exec_full, exec_dec, cobsDec_short_block hfull]
    rfl

end Sys2Proof.Machine
end

section
/-! SUPPORT. BUILD of a kind's value (30_encoding.md R80, R81), the responses of a step (R85), and the step of a presented
transaction (R87). -/

namespace Sys2Proof.Machine

theorem exec_build_of_kind {s : State} {k : Byte} (h : k ∈ s.cfg.kindMap.values) (p : Bytes) :
    exec (.build k p) s = .next (s.respond (.build .ok (buildFrame k p))) := by
  have hk : s.cfg.kindMap.kindOf? k ≠ none := fun hnone => KindMap.kindOf?_eq_none_iff.1 hnone h
  obtain ⟨kind, hkind⟩ := Option.ne_none_iff_exists'.1 hk
  simp [exec, execBuild, buildResponse, hkind]

/-- Settles O28: the encoded part is ENC's, which has no 0x00 and is read back. -/
theorem builtFrameHasOneZeroItsLast : Obligations.BuiltFrameHasOneZeroItsLast :=
  fun _ k p hk => ⟨cobsEnc (k :: p), cobsEnc_zeroFree _, cobsDec_cobsEnc _, exec_build_of_kind hk p⟩

/-- An accepted CHUNK is not answered yet; everything else is answered once, to the agent that presented it. -/
theorem exec_deliveries {i : Instr} {s t : State} (h : exec i s = .next t) :
    ((∃ c, i = .chunk c) ∧ s.busy = false ∧ t.deliveries = s.deliveries) ∨
    (¬ ((∃ c, i = .chunk c) ∧ s.busy = false) ∧ ∃ r, t.deliveries = s.deliveries ++ [⟨s.agent, r⟩]) := by
  obtain ⟨c, hi, hb, hs⟩ | ⟨c, -, hb, hs⟩ | ⟨hi, hs⟩ | ⟨hi, -, r, hs⟩ := exec_cases i s <;> cases hs.symm.trans h
  · exact .inl ⟨⟨c, hi⟩, hb, rfl⟩
  · exact .inr ⟨fun ⟨_, hidle⟩ => Bool.noConfusion (hb.symm.trans hidle), _, rfl⟩
  · exact .inr ⟨fun ⟨⟨c, hc⟩, _⟩ => (nomatch hi.symm.trans hc), _, rfl⟩
  · exact .inr ⟨fun ⟨⟨c, hc⟩, _⟩ => hi c hc, _, rfl⟩

/-- Settles O33: what `exec` and COMPLETE deliver. -/
theorem eachCommandIsAnsweredOnce : Obligations.EachCommandIsAnsweredOnce := by
  refine ⟨fun i s t => exec_deliveries, fun s t ht => ?_⟩
  obtain ⟨p, evs, hd, -⟩ := complete_tallied ht
  exact ⟨p, evs, hd⟩

/-- Settles O5: the schedule begins with the transaction, which `withFetchWord` puts there. -/
theorem stepRunsTheDecodedCommand : Obligations.StepRunsTheDecodedCommand :=
  ⟨fun _ _ _ _ => step_of_queue_present, fun s n w => step_of_queue_present (s.withFetchWord_queue n w),
    fun _ _ => rfl⟩

end Sys2Proof.Machine
end

section
/-! SUPPORT. The opcode table against the decoders, over the 256 bytes of each space (30_encoding.md R82, R83, R84), and
words written out from it. -/

namespace Sys2Proof

theorem rowsOf_command (b : Byte) : rowsOf .command b = [(decode (tableTransaction 8 b.toNat)).mnemonic] := by
  decide +revert +kernel

theorem rowsOf_codeByte (b : Byte) :
    (decodeCode [b]).map (fun i => [i.mnemonic]) = some (rowsOf .codeByte b) := by
  decide +revert +kernel

theorem rowsOf_kindByte (b : Byte) :
    (decodeKind KindMap.reference [b]).map (fun i => [i.mnemonic]) = some (rowsOf .kindByte b) := by
  decide +revert +kernel

/-- Settles O10: space by space. -/
theorem tableRowsPartitionTheBytes : Obligations.TableRowsPartitionTheBytes :=
  ⟨rowsOf_command, rowsOf_codeByte, rowsOf_kindByte⟩

/-- Settles O11: the decoders run on the ten words. -/
theorem writtenWordsDecodeToTheirCommands : Obligations.WrittenWordsDecodeToTheirCommands :=
  ⟨rfl, rfl, rfl, rfl, rfl, rfl, rfl, rfl, rfl, rfl⟩

end Sys2Proof
end

section
/-! SUPPORT. Where the encoder begins a block: after a 0x00 and after a full block. The encoding of data that ends with a
full run, with its empty last block and without it (40_codec.md R122, R133). -/

namespace Sys2Proof.Machine

/-- A 0x00 of the data closes the open block, and the data after it is encoded by itself. -/
theorem cobsBlocksFrom_append_zero (run p d : Bytes) :
    cobsBlocksFrom run (p ++ 0x00#8 :: d) = cobsBlocksFrom run p ++ cobsBlocksFrom [] d := by
  induction p generalizing run with
  | nil => simp [cobsBlocksFrom]
  | cons b p ih =>
    simp only [List.cons_append, cobsBlocksFrom]
    split
    · rw [ih, List.cons_append]
    · split
      · rw [ih, List.cons_append]
      · exact ih _

/-- The 254th non-zero byte closes the open block, and the data after it is encoded by itself. -/
theorem cobsBlocksFrom_append_full {run lits : Bytes} (hz : ZeroFree lits) (hr : run.length < 254)
    (hl : run.length + lits.length = 254) (d : Bytes) :
    cobsBlocksFrom run (lits ++ d) = (run ++ lits) :: cobsBlocksFrom [] d := by
  induction lits generalizing run with
  | nil => simp at hl; omega
  | cons b lits ih =>
    obtain ⟨hb, hlits⟩ := List.forall_mem_cons.1 hz
    rw [List.length_cons] at hl
    rw [List.cons_append, cobsBlocksFrom, if_neg hb]
    by_cases hfull : run.length + 1 = 254
    · have hnil : lits = [] := List.eq_nil_of_length_eq_zero (by omega)
      rw [if_pos hfull, hnil, List.nil_append]
    · rw [if_neg hfull, ih hlits (by simp; omega) (by simp; omega), List.append_assoc, List.singleton_append]

/-- A run of whole full blocks ends with its last 254 bytes as a block, and an empty block. -/
theorem cobsBlocks_full_run (n : Nat) {run : Bytes} (hz : ZeroFree run) (hl : run.length = 254 * (n + 1)) :
    ∃ before, cobsBlocksFrom [] run = before ++ [run.drop (run.length - 254), []] := by
  induction n generalizing run with
  | zero =>
    have hblocks := cobsBlocksFrom_append_full (run := []) hz (by simp) (by simpa using hl) []
    exact ⟨[], by simpa [hl, cobsBlocksFrom] using hblocks⟩
  | succ n ih =>
    have hfirst := cobsBlocksFrom_append_full (run := []) (lits := run.take 254)
      (fun b hb => hz b (List.mem_of_mem_take hb)) (by simp) (by simp; omega) (run.drop 254)
    obtain ⟨before, hrest⟩ := ih (run := run.drop 254) (fun b hb => hz b (List.mem_of_mem_drop hb))
      (by rw [List.length_drop]; omega)
    refine ⟨run.take 254 :: before, ?_⟩
    rw [List.take_append_drop, hrest, List.drop_drop, List.length_drop, Nat.add_sub_cancel' (by omega)] at hfirst
    exact hfirst

/-- So does data that ends with such a run (R122). -/
theorem cobsBlocks_full_last_run {p run : Bytes} (hp : p = [] ∨ p.getLast? = some 0x00#8) (hne : run ≠ [])
    (hdvd : 254 ∣ run.length) (hz : ZeroFree run) :
    ∃ before, cobsBlocksFrom [] (p ++ run) = before ++ [run.drop (run.length - 254), []] := by
  obtain ⟨m, hm⟩ := hdvd
  have hpos : 0 < run.length := List.length_pos_iff.2 hne
  obtain ⟨before, hrun⟩ := cobsBlocks_full_run (m - 1) hz (by omega)
  rcases hp with rfl | hlast
  · exact ⟨before, hrun⟩
  · obtain ⟨q, rfl⟩ := List.getLast?_eq_some_iff.1 hlast
    refine ⟨cobsBlocksFrom [] q ++ before, ?_⟩
    rw [List.append_assoc, List.singleton_append, cobsBlocksFrom_append_zero, hrun, List.append_assoc]

theorem blockBytes_nil : blockBytes [] = [0x01#8] := rfl

theorem blockBytes_full {lits : Bytes} (h : lits.length = 254) : blockBytes lits = 0xFF#8 :: lits := by
  rw [blockBytes, h]

/-- After a full block an empty last block stands for nothing. -/
theorem blocksData_full_empty (before : List Bytes) {lits : Bytes} (h : lits.length = 254) :
    blocksData (before ++ [lits, []]) = blocksData (before ++ [lits]) := by
  induction before with
  | nil => simp [blocksData, blockThen, h]
  | cons first more ih =>
    rw [List.cons_append, List.cons_append, blocksData_cons (by simp), blocksData_cons (by simp), ih]

/-- DEC of the encoding without its empty last block (R133). -/
theorem cobsDec_dropLast_cobsEnc {d lits : Bytes} {before : List Bytes}
    (hd : cobsBlocksFrom [] d = before ++ [lits, []]) (hl : lits.length = 254) :
    cobsDec (cobsEnc d).dropLast = (d, false) := by
  have hshort : (cobsEnc d).dropLast = (before ++ [lits]).flatMap blockBytes := by
    rw [cobsEnc_blocks, hd, List.append_cons, List.flatMap_append, List.flatMap_singleton, blockBytes_nil,
      List.dropLast_concat]
  have hle : ∀ l ∈ before ++ [lits], l.length ≤ 254 := fun l hmem =>
    cobsBlocks_length_le (d := d) (by rw [hd, List.append_cons]; exact List.mem_append_left _ hmem)
  rw [hshort, cobsDec_blocks hle, ← blocksData_full_empty before hl, ← hd,
    blocksData_cobsBlocksFrom _ _ (by simp), List.nil_append]

theorem length_drop_last_254 {run : Bytes} (hne : run ≠ []) (hdvd : 254 ∣ run.length) :
    (run.drop (run.length - 254)).length = 254 := by
  have hle : 254 ≤ run.length := Nat.le_of_dvd (List.length_pos_iff.2 hne) hdvd
  rw [List.length_drop]
  omega

/-- Settles O21: the blocks of an encoding are read back, and so they are without the empty last one. -/
theorem decInvertsEnc : Obligations.DecInvertsEnc := by
  refine ⟨fun d s => ?_, fun p run s hp hne hdvd hz => ?_⟩
  · rw [exec_dec, cobsDec_cobsEnc]
    rfl
  · obtain ⟨before, hblocks⟩ := cobsBlocks_full_last_run hp hne hdvd hz
    rw [exec_dec, cobsDec_dropLast_cobsEnc hblocks (length_drop_last_254 hne hdvd)]
    rfl

/-- Settles O18: the last two blocks, written out. -/
theorem encEndsAFullRunWithAnEmptyBlock : Obligations.EncEndsAFullRunWithAnEmptyBlock := by
  intro p run hp hne hdvd hz
  obtain ⟨before, hblocks⟩ := cobsBlocks_full_last_run hp hne hdvd hz
  refine ⟨before.flatMap blockBytes, ?_⟩
  rw [cobsEnc_blocks, hblocks, List.flatMap_append, List.flatMap_cons, List.flatMap_singleton, blockBytes_nil,
    blockBytes_full (length_drop_last_254 hne hdvd), List.cons_append]

end Sys2Proof.Machine
end

section
/-! SUPPORT. ENC by its blocks (40_codec.md R120, R121), and DEC by the block its input begins with (R131, R132). -/

namespace Sys2Proof.Machine

/-- Settles O15: the blocks the encoder makes. -/
theorem encAnswersTheBlocksOfItsData : Obligations.EncAnswersTheBlocksOfItsData := by
  intro d s
  refine ⟨cobsBlocksFrom [] d, cobsBlocksFrom_ne_nil _ _, blocksData_cobsBlocksFrom _ _ (by simp),
    fun lits h => ⟨cobsBlocks_length_le h, cobsBlocks_zeroFree h⟩, ?_⟩
  rw [← cobsEnc_blocks]
  rfl

theorem cobsEnc_injective : Function.Injective cobsEnc := fun d d' h => by
  have hdec := congrArg cobsDec h
  rw [cobsDec_cobsEnc, cobsDec_cobsEnc] at hdec
  exact congrArg Prod.fst hdec

/-- The literals of every block are non-zero bytes of the data. -/
theorem cobsBlocks_literal {d lits : Bytes} (h : lits ∈ cobsBlocksFrom [] d) {b : Byte} (hb : b ∈ lits) :
    b ≠ 0x00#8 ∧ b ∈ d := by
  obtain ⟨-, hlits⟩ := cobsBlocksFrom_block (by simp) (by simp) h
  simpa using hlits b hb

/-- Settles O16: (a) and (b) block by block, (d) by the lengths of the blocks, (e) since DEC inverts ENC. -/
theorem encodingHasThePropertiesOfR121 : Obligations.EncodingHasThePropertiesOfR121 := by
  refine fun d => ⟨⟨cobsBlocksFrom [] d, cobsEnc_blocks d, fun lits h => ⟨?_, ?_, fun b => cobsBlocks_literal h⟩⟩,
    cobsEnc_zeroFree d, length_cobsEnc d, length_cobsEnc_le d, fun d' h => cobsEnc_injective h⟩
  · exact Nat.le_add_left _ _
  · exact Nat.succ_le_succ (cobsBlocks_length_le h)

/-- Settles O19: the decoder at the end of the input, at a 0x00, at a block cut short and at a whole block. -/
theorem decReadsBlockByBlock : Obligations.DecReadsBlockByBlock := by
  refine ⟨fun w => rfl, fun s => ⟨rfl, fun rest => rfl, fun c short h => ?_, fun c lits rest h => ?_⟩⟩
  · rw [exec_dec, cobsDec_short_block h]
    rfl
  · rw [exec_dec, cobsDec_whole_block h]
    split <;> rfl

/-- What an input of DEC begins with: nothing, a 0x00, a block cut short, or a whole block. -/
inductive BeginsWith : Bytes → Prop
  | nothing : BeginsWith []
  | zero (rest : Bytes) : BeginsWith (0x00#8 :: rest)
  | short {c : Byte} {short : Bytes} (h : short.length + 1 < c.toNat) : BeginsWith (c :: short)
  | block {lits : Bytes} (h : lits.length ≤ 254) (rest : Bytes) : BeginsWith (blockBytes lits ++ rest)

theorem beginsWith (s : Bytes) : BeginsWith s := by
  match s with
  | [] => exact .nothing
  | c :: t =>
    by_cases h0 : c = 0x00#8
    · exact h0 ▸ .zero t
    by_cases hshort : t.length + 1 < c.toNat
    · exact .short hshort
    · have hc : c.toNat ≠ 0 := fun h => h0 (BitVec.eq_of_toNat_eq h)
      have hlt := c.isLt
      have hl : (t.take (c.toNat - 1)).length + 1 = c.toNat := by rw [List.length_take]; omega
      have hblock := BeginsWith.block (lits := t.take (c.toNat - 1)) (by omega) (t.drop (c.toNat - 1))
      rwa [blockBytes, hl, BitVec.ofNat_toNat, BitVec.setWidth_eq, List.cons_append, List.take_append_drop] at hblock

/-- An input on which DEC is truncated is whole blocks and then one cut short. -/
theorem exists_blocks_of_truncated {s : Bytes} (h : (cobsDec s).2 = true) :
    ∃ (blocks : List Bytes) (c : Byte) (short : Bytes), (∀ lits ∈ blocks, lits.length ≤ 254) ∧
      short.length + 1 < c.toNat ∧ s = blocks.flatMap blockBytes ++ c :: short := by
  induction hn : s.length using Nat.strong_induction_on generalizing s with
  | _ n ih =>
    cases beginsWith s with
    | nothing => cases h
    | zero rest => cases h
    | @short c short hshort => exact ⟨[], c, short, by simp, hshort, rfl⟩
    | @block lits hl rest =>
      rw [cobsDec_block hl, decLoop_boundary] at h
      split at h
      · cases h
      · obtain ⟨blocks, c, short, hblocks, hshort, rfl⟩ := ih rest.length (by simp [← hn, length_blockBytes]) h rfl
        refine ⟨lits :: blocks, c, short, List.forall_mem_cons.2 ⟨hl, hblocks⟩, hshort, ?_⟩
        rw [List.flatMap_cons, List.append_assoc]

/-- DEC of whole blocks and then one cut short: everything before the end of the input, and truncated. -/
theorem cobsDec_blocks_short {blocks : List Bytes} (h : ∀ lits ∈ blocks, lits.length ≤ 254) {c : Byte} {short : Bytes}
    (hshort : short.length + 1 < c.toNat) :
    cobsDec (blocks.flatMap blockBytes ++ c :: short) = (blocks.flatMap blockThen ++ short, true) := by
  have hc : c ≠ 0x00#8 := by rintro rfl; simp at hshort
  rw [cobsDec_blocks_then h hc, cobsDec_short_block hshort]

/-- Settles O20: the input's shape by what it begins with, and its decoding by that shape. -/
theorem decIsTruncatedExactlyInsideABlock : Obligations.DecIsTruncatedExactlyInsideABlock := by
  intro s out
  constructor
  · intro h
    obtain ⟨blocks, c, short, hblocks, hshort, rfl⟩ := exists_blocks_of_truncated (congrArg Prod.snd h)
    rw [cobsDec_blocks_short hblocks hshort] at h
    exact ⟨blocks, c, short, hblocks, hshort, rfl, (congrArg Prod.fst h).symm⟩
  · rintro ⟨blocks, c, short, hblocks, hshort, rfl, rfl⟩
    exact cobsDec_blocks_short hblocks hshort

end Sys2Proof.Machine
end

section
/-! SUPPORT. What FRAME_TO_PACKET answers, by the frame and `KIND_MAP` alone (41_reassembler.md R168). -/

namespace Sys2Proof.Machine

/-- The packet and the events that a frame gives a response (R168): truncation first, then emptiness, then the kind. -/
def frameAnswer (km : KindMap) (frame : Bytes) : Option Packet × List Event :=
  if (cobsDec frame).2 then (none, [⟨.frameTruncated, none⟩])
  else
    match discriminate km (cobsDec frame).1 with
    | .ok p => (some p, [])
    | .empty => (none, [⟨.frameEmpty, none⟩])
    | .unknown k => (none, [⟨.unknownKind, some k⟩])

/-- FRAME_TO_PACKET adds the frame's answer, and writes the counters only. -/
theorem frameToPacket_eq (x : Progress) (frame : Bytes) :
    ∃ n, frameToPacket x frame =
      { state := { x.state with cnt := n }
        events := x.events ++ (frameAnswer x.state.cfg.kindMap frame).2
        packet := (frameAnswer x.state.cfg.kindMap frame).1 } := by
  simp only [frameToPacket, frameAnswer]
  split
  · exact ⟨_, rfl⟩
  · cases discriminate x.state.cfg.kindMap (cobsDec frame).1 with
    | ok p => exact ⟨x.state.cnt, by rw [List.append_nil]⟩
    | empty => exact ⟨_, rfl⟩
    | unknown k => exact ⟨_, rfl⟩

theorem frameAnswer_truncated (km : KindMap) {frame : Bytes} (h : (cobsDec frame).2 = true) :
    frameAnswer km frame = (none, [⟨.frameTruncated, none⟩]) := if_pos h

theorem frameAnswer_empty (km : KindMap) {frame : Bytes} (h : cobsDec frame = ([], false)) :
    frameAnswer km frame = (none, [⟨.frameEmpty, none⟩]) := by
  simp [frameAnswer, h, discriminate]

theorem frameAnswer_of_kind {km : KindMap} {frame m : Bytes} {k : Byte} {kind : Kind}
    (h : cobsDec frame = (k :: m, false)) (hk : km.kindOf? k = some kind) :
    frameAnswer km frame = (some ⟨kind, m⟩, []) := by
  simp [frameAnswer, h, discriminate_of_kind hk]

theorem frameAnswer_of_no_kind {km : KindMap} {frame m : Bytes} {k : Byte}
    (h : cobsDec frame = (k :: m, false)) (hk : km.kindOf? k = none) :
    frameAnswer km frame = (none, [⟨.unknownKind, some k⟩]) := by
  simp [frameAnswer, h, discriminate_of_no_kind hk]

/-- The encoded part of a built frame answers its packet, with no event. -/
theorem frameAnswer_built {cfg : Config} (h : cfg.wf = true) (x : Packet) :
    frameAnswer cfg.kindMap (cobsEnc (cfg.kindMap.valueOf x.kind :: x.payload)) = (some x, []) :=
  frameAnswer_of_kind (cobsDec_cobsEnc _) (KindMap.kindOf?_valueOf (Config.wf_iff.1 h).2 x.kind)

/-- A frame gives a packet and no event, or one event of a frame and no packet (R168). -/
theorem frameAnswer_cases (km : KindMap) (frame : Bytes) :
    (∃ p, frameAnswer km frame = (some p, [])) ∨
    (∃ v : Event, v.code ≠ .overflow ∧ v.code ≠ .busyDrop ∧ frameAnswer km frame = (none, [v])) := by
  simp only [frameAnswer]
  split
  · exact .inr ⟨⟨.frameTruncated, none⟩, nofun, nofun, rfl⟩
  · split
    · exact .inl ⟨_, rfl⟩
    · exact .inr ⟨⟨.frameEmpty, none⟩, nofun, nofun, rfl⟩
    · exact .inr ⟨⟨.unknownKind, some _⟩, nofun, nofun, rfl⟩

end Sys2Proof.Machine
end

section
/-! SUPPORT. COMPLETE of a chunk that fits, while not hunting, as an equation (41_reassembler.md R166, R167). -/

namespace Sys2Proof.Machine

/-- `BUF[0..WO)` holds `live`, and the scanned part of it has no delimiter (R31, R38, R39 a). -/
structure Buffers (s : State) (live : Bytes) : Prop where
  length  : live.length = s.wo
  bytes   : s.mem.Has 0 live
  sc_le   : s.sc ≤ s.wo
  scanned : ZeroFree (live.take s.sc)

theorem Buffers.wo_sc_of_nil {s : State} (h : Buffers s []) : s.wo = 0 ∧ s.sc = 0 :=
  ⟨h.length.symm, Nat.le_zero.1 (h.sc_le.trans_eq h.length.symm)⟩

/-- The invariants give the scanned part of what `State.Holds` reads. -/
theorem State.Inv.buffers {s : State} (h : s.Inv) {live : Bytes} (hl : s.Holds live) : Buffers s live := by
  obtain ⟨hlen, hbytes, -⟩ := memReadRange_ok_iff.1 hl
  obtain ⟨live', hlen', hbytes', hscanned⟩ := h.bufOk.live
  cases hbytes.unique hbytes' (hlen.trans hlen'.symm)
  exact ⟨hlen, hbytes, h.sc_le, hscanned⟩

theorem State.Ready.buffers {s : State} (h : s.Ready) : Buffers s [] :=
  ⟨h.wo.symm, .nil _ _, by rw [h.sc, h.wo], fun _ hb => by simp at hb⟩

/-- Bytes below CAP are read back whole. -/
theorem State.holds_of_has {s : State} {live : Bytes} (hlen : live.length = s.wo) (hb : s.mem.Has 0 live)
    (hcap : s.wo ≤ s.cfg.cap) : s.Holds live :=
  memReadRange_ok_iff.2 ⟨hlen, hb, fun _ => by omega⟩

/-- `s` with other buffer registers, the latch cleared and the owner answered: what COMPLETE leaves where the chunk fits. -/
def State.completed (s : State) (m : Memory) (wo sc : Nat) (n : Counters) (r : Option Packet × List Event) : State :=
  { s with mem := m, wo := wo, sc := sc, busy := false, pend := [], owner := 0, cnt := n,
           deliveries := s.deliveries ++ [⟨s.owner, .chunk r.1 r.2⟩] }

/-- R166: no delimiter in the buffered bytes and the chunk. -/
theorem complete_wait {s : State} {live : Bytes} (h : Buffers s live) (hh : s.hunt = false)
    (hc : s.wo + s.pend.length ≤ s.cfg.cap) (hz : ZeroFree (live ++ s.pend)) :
    complete s = .next (s.completed (s.mem.writeAll s.wo s.pend) (s.wo + s.pend.length) (s.wo + s.pend.length)
      s.cnt (none, [])) :=
  complete_next_iff.2 ⟨_, (process_fits hh hc).trans (absorb_wait (x := ⟨s, []⟩) h.length h.bytes h.sc_le hc hz), rfl⟩

/-- R167: the buffered bytes and the chunk hold a first frame. -/
theorem complete_extract {s : State} {live frame rem : Bytes} (h : Buffers s live) (hh : s.hunt = false)
    (hc : s.wo + s.pend.length ≤ s.cfg.cap) (he : live ++ s.pend = frame ++ 0x00#8 :: rem) (hz : ZeroFree frame) :
    ∃ n, complete s = .next (s.completed ((s.mem.writeAll s.wo s.pend).writeAll 0 rem) rem.length 0 n
      (frameAnswer s.cfg.kindMap frame)) := by
  have hp := (process_fits hh hc).trans (absorb_extract (x := ⟨s, []⟩) h.length h.bytes h.sc_le h.scanned hc he hz)
  obtain ⟨n, hn⟩ := frameToPacket_eq ⟨{ s with
    mem := (s.mem.writeAll s.wo s.pend).writeAll 0 rem, wo := rem.length, sc := 0 }, []⟩ frame
  exact ⟨n, complete_next_iff.2 ⟨_, hp.trans (congrArg _ hn), rfl⟩⟩

/-- What COMPLETE answers, its counters follow. -/
theorem completed_tallied {s : State} {m : Memory} {wo sc : Nat} {n : Counters} {r : Option Packet × List Event}
    (h : complete s = .next (s.completed m wo sc n r)) : Tallied s.cnt n r.2 := by
  obtain ⟨p, evs, hd, hn⟩ := complete_tallied h
  obtain ⟨-, hlast⟩ := List.append_inj' hd rfl
  cases hlast
  exact hn

/-- The remainder is shorter than the bytes it is taken from. -/
theorem Buffers.rem_length_lt {s : State} {live c frame rem : Bytes} (h : Buffers s live)
    (he : live ++ c = frame ++ 0x00#8 :: rem) : rem.length < s.wo + c.length := by
  have hlen := congrArg List.length he
  simp only [List.length_append, List.length_cons, h.length] at hlen
  omega

/-- Settles O36: the chunk is stored behind the buffered bytes, and nothing else happens. -/
theorem completeBuffersAnUnfinishedFrame : Obligations.CompleteBuffersAnUnfinishedFrame := by
  intro s live hinv _ hh hl hc hz
  have hbuf := hinv.buffers hl
  refine ⟨_, complete_wait hbuf hh hc hz, rfl, rfl, State.holds_of_has ?_ ?_ hc, rfl, rfl, rfl, hh, rfl, rfl, rfl, rfl⟩
  · simp [State.completed, hbuf.length]
  · exact hbuf.length ▸ hbuf.bytes.writeAll_append s.pend

/-- Settles O37: the remainder is stored from index 0, and the frame alone decides the answer. -/
theorem completeExtractsTheFirstFrame : Obligations.CompleteExtractsTheFirstFrame := by
  intro s live frame rem hinv _ hh hl hc he hz
  have hbuf := hinv.buffers hl
  obtain ⟨n, ht⟩ := complete_extract hbuf hh hc he hz
  have hrem := hbuf.rem_length_lt he
  refine ⟨_, _, _, ht, rfl, rfl, State.holds_of_has rfl (Memory.has_writeAll _ 0 rem) (by
    simp only [State.completed]; omega), rfl, rfl, rfl, hh, rfl, rfl, rfl, completed_tallied ht,
    fun htrunc => ?_, fun hnot hempty => ?_, fun k m hdec => ⟨fun kind hk => ?_, fun hk => ?_⟩⟩
  · exact Prod.ext_iff.1 (frameAnswer_truncated _ htrunc)
  · exact Prod.ext_iff.1 (frameAnswer_empty _ (Prod.ext hempty hnot))
  · exact Prod.ext_iff.1 (frameAnswer_of_kind hdec hk)
  · exact Prod.ext_iff.1 (frameAnswer_of_no_kind hdec hk)

end Sys2Proof.Machine
end

section
/-! SUPPORT. Runs of the schedules of one host that waits for each response (41_reassembler.md R160, R174). -/

namespace Sys2Proof.Machine

/-- A run cut in two. -/
theorem run_append {m : Nat} {s t : State} (n : Nat) (h : Sys2Proof.core.run m s = .next t) :
    Sys2Proof.core.run (m + n) s = Sys2Proof.core.run n t := by
  induction m generalizing s with
  | zero =>
    cases h
    rw [Nat.zero_add]
  | succ m ih =>
    rw [Nat.succ_add]
    simp only [Host.Core.run] at h ⊢
    cases hs : Sys2Proof.core.step s with
    | next s' =>
      rw [hs] at h
      exact ih h
    | fault r => rw [hs] at h; cases h
    | refused r => rw [hs] at h; cases h

theorem run_one (s : State) : Sys2Proof.core.run 1 s = step s := by
  change _ = Sys2Proof.core.step s
  simp only [Host.Core.run]
  cases Sys2Proof.core.step s <;> rfl

/-- One more step, the first. -/
theorem run_succ {s t : State} (n : Nat) (h : step s = .next t) :
    Sys2Proof.core.run (n + 1) s = Sys2Proof.core.run n t := by
  rw [Nat.add_comm]
  exact run_append n ((run_one s).trans h)

/-- `s` after agent `a`'s CHUNK `c` was accepted (R161), with `q` left on the schedule. -/
def State.accepted (s : State) (a : Nat) (c : Bytes) (q : List Stimulus) : State :=
  State.latch { s with queue := q, agent := a } c

theorem step_accept {s : State} {a : Nat} {c : Bytes} {q : List Stimulus} (hb : s.busy = false)
    (hq : s.queue = .present a (encode Config.reference (.chunk c)) :: q) : step s = .next (s.accepted a c q) :=
  (step_of_queue_present hq).trans (exec_chunk_idle (s := { s with queue := q, agent := a }) hb c)

/-- An idle block accepts the chunk and completes it. -/
theorem run_chunk {s : State} {a : Nat} {c : Bytes} {q : List Stimulus} (hb : s.busy = false)
    (hq : s.queue = .present a (encode Config.reference (.chunk c)) :: .complete :: q) :
    Sys2Proof.core.run 2 s = complete (s.accepted a c q) :=
  ((run_succ 1 (step_accept hb hq)).trans (run_one _)).trans
    (step_of_queue_complete (s := s.accepted a c (.complete :: q)) rfl)

/-- An idle block that does not hunt, with `live` buffered. -/
structure Waits (s : State) (live : Bytes) : Prop extends Buffers s live where
  idle   : s.busy = false
  inStep : s.hunt = false

theorem State.Ready.waits {s : State} (h : s.Ready) : Waits s [] := ⟨h.buffers, h.busy, h.hunt⟩

theorem Waits.withQueue {s : State} {live : Bytes} (h : Waits s live) (q : List Stimulus) :
    Waits { s with queue := q } live := ⟨⟨h.length, h.bytes, h.sc_le, h.scanned⟩, h.idle, h.inStep⟩

theorem Waits.accepted {s : State} {live : Bytes} (h : Waits s live) (a : Nat) (c : Bytes) (q : List Stimulus) :
    Buffers (s.accepted a c q) live := ⟨h.length, h.bytes, h.sc_le, h.scanned⟩

/-- From `s` to `t`, agent `a`'s chunk was answered with `r`, `live` is buffered and `q` is left on the schedule. -/
structure Answered (s t : State) (a : Nat) (q : List Stimulus) (live : Bytes) (r : Option Packet × List Event) :
    Prop where
  waits      : Waits t live
  queue      : t.queue = q
  cfg        : t.cfg = s.cfg
  counts     : Tallied s.cnt t.cnt r.2
  deliveries : t.deliveries = s.deliveries ++ [⟨a, .chunk r.1 r.2⟩]

/-- A chunk that completes no frame is buffered (R166). -/
theorem run_chunk_wait {s : State} {live c : Bytes} {a : Nat} {q : List Stimulus} (h : Waits s live)
    (hc : (live ++ c).length ≤ s.cfg.cap) (hz : ZeroFree (live ++ c))
    (hq : s.queue = .present a (encode Config.reference (.chunk c)) :: .complete :: q) :
    ∃ t, Sys2Proof.core.run 2 s = .next t ∧ Answered s t a q (live ++ c) (none, []) := by
  rw [List.length_append, h.length] at hc
  refine ⟨_, (run_chunk h.idle hq).trans (complete_wait (h.accepted a c q) h.inStep hc hz),
    ⟨⟨?_, h.length ▸ h.bytes.writeAll_append c, le_refl _, ?_⟩, rfl, h.inStep⟩, rfl, rfl, Tallied.nil _, rfl⟩
  · simp [State.completed, State.accepted, h.length]
  · exact fun b hb => hz b (List.mem_of_mem_take hb)

/-- A chunk that completes a frame is answered with it, and the rest stays buffered (R167). -/
theorem run_chunk_extract {s : State} {live c frame rem : Bytes} {a : Nat} {q : List Stimulus} (h : Waits s live)
    (hc : (live ++ c).length ≤ s.cfg.cap) (he : live ++ c = frame ++ 0x00#8 :: rem) (hz : ZeroFree frame)
    (hq : s.queue = .present a (encode Config.reference (.chunk c)) :: .complete :: q) :
    ∃ t, Sys2Proof.core.run 2 s = .next t ∧ Answered s t a q rem (frameAnswer s.cfg.kindMap frame) := by
  rw [List.length_append, h.length] at hc
  obtain ⟨n, ht⟩ := complete_extract (h.accepted a c q) h.inStep hc he hz
  exact ⟨_, (run_chunk h.idle hq).trans ht,
    ⟨⟨rfl, Memory.has_writeAll _ 0 rem, Nat.zero_le _, fun _ hb => by simp [State.completed] at hb⟩, rfl, h.inStep⟩,
    rfl, rfl, completed_tallied (s := s.accepted a c q) ht, rfl⟩

end Sys2Proof.Machine
end

section
/-! SUPPORT. Streams: a frame in pieces (41_reassembler.md R175), and several frames in one chunk (R171, R172). -/

namespace Sys2Proof.Machine

theorem chunkSchedule_cons (a : Nat) (c : Bytes) (chunks : List Bytes) (q : List Stimulus) :
    chunkSchedule a (c :: chunks) ++ q =
      .present a (encode Config.reference (.chunk c)) :: .complete :: (chunkSchedule a chunks ++ q) := rfl

theorem chunkSchedule_append (a : Nat) (xs ys : List Bytes) (q : List Stimulus) :
    chunkSchedule a (xs ++ ys) ++ q = chunkSchedule a xs ++ (chunkSchedule a ys ++ q) := by
  simp [chunkSchedule]

/-- The pieces of a frame before the delimiter are buffered one after the other, each answered with nothing. -/
theorem run_pieces {s : State} {live : Bytes} {a : Nat} {q : List Stimulus} (pieces : List Bytes) (h : Waits s live)
    (hc : (live ++ pieces.flatten).length ≤ s.cfg.cap) (hz : ZeroFree (live ++ pieces.flatten))
    (hq : s.queue = chunkSchedule a pieces ++ q) :
    ∃ t, Sys2Proof.core.run (2 * pieces.length) s = .next t ∧ Waits t (live ++ pieces.flatten) ∧ t.queue = q ∧
      t.cfg = s.cfg ∧ t.deliveries = s.deliveries ++ List.replicate pieces.length ⟨a, .chunk none []⟩ := by
  induction pieces generalizing s live with
  | nil => exact ⟨s, rfl, by simpa using h, hq, rfl, by simp⟩
  | cons c pieces ih =>
    rw [List.flatten_cons, ← List.append_assoc] at hc hz ⊢
    rw [chunkSchedule_cons] at hq
    have hfront : (live ++ c).length ≤ s.cfg.cap := by rw [List.length_append] at hc; omega
    obtain ⟨u, hu, hans⟩ :=
      run_chunk_wait h hfront (fun b hb => hz b (List.mem_append_left _ hb)) hq
    obtain ⟨t, ht, hwaits, hqueue, hcfg, hdel⟩ := ih hans.waits (hans.cfg ▸ hc) hz hans.queue
    refine ⟨t, ?_, hwaits, hqueue, hcfg.trans hans.cfg, ?_⟩
    · rw [List.length_cons, Nat.mul_succ, Nat.add_comm, run_append _ hu, ht]
    · rw [hdel, hans.deliveries, List.length_cons, List.replicate_succ, List.append_assoc, List.singleton_append]

/-- A split of `e` and a delimiter with a last piece that is not empty: the last piece holds the delimiter. -/
theorem split_last {e last : Bytes} {init : List Bytes} (hs : (init ++ [last]).flatten = e ++ [0x00#8])
    (hl : last ≠ []) : ∃ body, last = body ++ [0x00#8] ∧ e = init.flatten ++ body := by
  obtain ⟨body, b, rfl⟩ := (List.eq_nil_or_concat' last).resolve_left hl
  rw [List.flatten_append, List.flatten_singleton, ← List.append_assoc] at hs
  obtain ⟨he, hb⟩ := List.append_inj' hs rfl
  exact ⟨body, by rw [hb], he.symm⟩

/-- A frame in pieces, from the empty block: nothing until the last piece, which gets the frame's answer. -/
theorem run_frame_in_pieces {s : State} {e last : Bytes} {init : List Bytes} {a : Nat} {q : List Stimulus}
    (h : Waits s []) (hz : ZeroFree e) (hc : e.length + 1 ≤ s.cfg.cap)
    (hs : (init ++ [last]).flatten = e ++ [0x00#8]) (hl : last ≠ [])
    (hq : s.queue = chunkSchedule a (init ++ [last]) ++ q) :
    ∃ t u, Sys2Proof.core.run (2 * (init.length + 1)) s = .next t ∧
      u.deliveries = s.deliveries ++ List.replicate init.length ⟨a, .chunk none []⟩ ∧
      Answered u t a q [] (frameAnswer s.cfg.kindMap e) := by
  obtain ⟨body, rfl, rfl⟩ := split_last hs hl
  rw [chunkSchedule_append] at hq
  have hlen : (init.flatten ++ body).length = init.flatten.length + body.length := List.length_append
  obtain ⟨u, hu, hwaits, hqueue, hcfg, hdel⟩ := run_pieces init h (by rw [List.nil_append]; omega)
    (fun b hb => hz b (List.mem_append_left _ hb)) hq
  obtain ⟨t, ht, hans⟩ := run_chunk_extract (frame := init.flatten ++ body) (rem := []) hwaits
    (by rw [hcfg]; simp only [List.nil_append, List.length_append, List.length_singleton] at hc ⊢; omega)
    (by simp) hz hqueue
  exact ⟨t, u, (run_append 2 hu).trans ht, hdel, hcfg ▸ hans⟩

/-- Settles O49: the single chunk is the split without a piece before the last. -/
theorem fragmentationDoesNotChangeTheAnswer : Obligations.FragmentationDoesNotChangeTheAnswer := by
  intro s a e init last q hr hz hc hs hl
  have hwaits := hr.waits
  obtain ⟨t, t', ht, hdel, hans⟩ := run_frame_in_pieces (hwaits.withQueue (chunkSchedule a (init ++ [last]) ++ q))
    hz hc hs hl rfl
  obtain ⟨u, u', hu, hdel', hans'⟩ := run_frame_in_pieces (init := [])
    (hwaits.withQueue (chunkSchedule a [e ++ [0x00#8]] ++ q)) hz hc List.flatten_singleton (by simp) rfl
  obtain ⟨hwo, hsc⟩ := hans.waits.wo_sc_of_nil
  obtain ⟨hwo', hsc'⟩ := hans'.waits.wo_sc_of_nil
  exact ⟨t, u, _, _, ht, hu, hdel ▸ hans.deliveries, by simpa [hdel'] using hans'.deliveries, hwo, hsc, hwo', hsc'⟩

/-- The bytes on the wire of a packet. -/
def Packet.frame (km : KindMap) (x : Packet) : Bytes := buildFrame (km.valueOf x.kind) x.payload

/-- The first frame of a backlog surfaces its packet. -/
theorem run_chunk_packet {s : State} {live c rest : Bytes} {a : Nat} {q : List Stimulus} {x : Packet}
    (h : Waits s live) (hcfg : s.cfg.wf = true) (he : live ++ c = x.frame s.cfg.kindMap ++ rest)
    (hc : (live ++ c).length ≤ s.cfg.cap)
    (hq : s.queue = .present a (encode Config.reference (.chunk c)) :: .complete :: q) :
    ∃ t, Sys2Proof.core.run 2 s = .next t ∧ Answered s t a q rest (some x, []) := by
  rw [Packet.frame, buildFrame, List.append_assoc] at he
  obtain ⟨t, ht, hans⟩ := run_chunk_extract h hc he (cobsEnc_zeroFree _) hq
  exact ⟨t, ht, frameAnswer_built hcfg x ▸ hans⟩

/-- A backlog: the packets' frames, buffered and in a chunk, are answered one per chunk, in order. -/
theorem run_backlog {s : State} {live c : Bytes} {a : Nat} {q : List Stimulus} (first : Packet) (others : List Packet)
    (h : Waits s live) (hcfg : s.cfg.wf = true)
    (he : live ++ c = (first :: others).flatMap (Packet.frame s.cfg.kindMap)) (hc : (live ++ c).length ≤ s.cfg.cap)
    (hq : s.queue = chunkSchedule a (c :: List.replicate others.length []) ++ q) :
    ∃ t, Sys2Proof.core.run (2 * (others.length + 1)) s = .next t ∧ Waits t [] ∧
      t.deliveries = s.deliveries ++ (first :: others).map (fun x => ⟨a, .chunk (some x) []⟩) := by
  induction others generalizing s live c first with
  | nil =>
    obtain ⟨t, ht, hans⟩ := run_chunk_packet h hcfg he hc hq
    exact ⟨t, ht, hans.waits, hans.deliveries⟩
  | cons second others ih =>
    obtain ⟨u, hu, hans⟩ := run_chunk_packet h hcfg he hc hq
    have hrest : ((second :: others).flatMap (Packet.frame s.cfg.kindMap)).length ≤ s.cfg.cap := by
      rw [he, List.flatMap_cons, List.length_append] at hc
      omega
    obtain ⟨t, ht, hwaits, hdel⟩ := ih second hans.waits (hans.cfg ▸ hcfg) (hans.cfg ▸ List.append_nil _)
      (by rwa [List.append_nil, hans.cfg]) hans.queue
    refine ⟨t, ?_, hwaits, ?_⟩
    · rw [List.length_cons, Nat.mul_succ 2 (others.length + 1), Nat.add_comm, run_append _ hu, ht]
    · rw [hdel, hans.deliveries, List.append_assoc]; rfl

/-- Settles O51: from the empty block, all the frames are in the first chunk. -/
theorem backlogIsDrainedInOrder : Obligations.BacklogIsDrainedInOrder := by
  intro s a first others q hr hcfg hc hq
  obtain ⟨t, ht, hwaits, hdel⟩ := run_backlog first others hr.waits hcfg rfl hc hq
  exact ⟨t, ht, hdel, hwaits.wo_sc_of_nil⟩

end Sys2Proof.Machine
end

section
/-! SUPPORT. ACCEPT (41_reassembler.md R161), and COMPLETE where the hosts rest (R162). -/

namespace Sys2Proof.Machine

/-- Settles O34: both branches of ACCEPT. -/
theorem acceptLatchesOrDropsTheChunk : Obligations.AcceptLatchesOrDropsTheChunk := by
  intro c s
  constructor
  · exact fun hb => exec_chunk_idle hb c
  · intro hb
    refine ⟨_, exec_chunk_busy hb c, ?_, fun e he => ?_, rfl, fun _ => rfl, rfl⟩
    · exact Counters.get_incr s.cnt .busyDrop .busyDrop
    · exact (Counters.get_incr s.cnt .busyDrop e).trans (if_neg he)

/-- COMPLETE answers the owner, clears BUSY and leaves the schedule. -/
theorem complete_answers_owner {s : State} (h : s.Inv) :
    ∃ t p evs, complete s = .next t ∧ t.busy = false ∧ t.queue = s.queue ∧
      t.deliveries = s.deliveries ++ [⟨s.owner, .chunk p evs⟩] := by
  obtain ⟨t, ht⟩ := complete_answers h
  obtain ⟨p, evs, hdel, -⟩ := complete_tallied ht
  obtain ⟨-, hqueue, -, -, hbusy, -⟩ := completeFrame s t ht
  exact ⟨t, p, evs, ht, hbusy, hqueue, hdel⟩

/-- Settles O48: with an empty schedule a busy block takes COMPLETE. -/
theorem anInFlightChunkIsCompletedWhenHostsRest : Obligations.AnInFlightChunkIsCompletedWhenHostsRest := by
  intro s h hq hb
  obtain ⟨t, p, evs, ht, hbusy, hqueue, hdel⟩ := complete_answers_owner h
  refine ⟨t, p, evs, ?_, hbusy, hqueue.trans hq, hdel⟩
  rw [step_of_queue_nil hq, if_pos hb, ht]

end Sys2Proof.Machine
end

section
/-! SUPPORT. PROCESS beside the loop of R163, and the scan of R165. -/

namespace Sys2Proof.Machine

/-- While hunting, every pass that goes on has dropped a 0x00 of the chunk, so `len(c) + 1` passes are enough (R173). -/
theorem processLoop_hunts {n : Nat} {x : Progress} {c : Bytes} (hh : x.state.hunt = true) (hn : c.length < n) :
    processLoop n x c = some (huntOn x c) := by
  induction n generalizing x c with
  | zero => omega
  | succ n ih =>
    rcases zero_split c with hz | ⟨lost, rest, rfl, hz⟩
    · rw [huntOn_zeroFree x hz]
      simp [processLoop, hh, firstZero_eq_none_iff.2 hz]
    · have hdrop : (lost ++ 0x00#8 :: rest).drop (lost.length + 1) = rest := by simp
      simp only [List.length_append, List.length_cons] at hn
      rw [huntOn_lost x hz, huntOn_zero]
      simp only [processLoop, hh, if_true, firstZero_append_zero hz, hdrop]
      split
      · exact ih rfl (by omega)
      · rfl

theorem processLoop_overflows {x : Progress} {c : Bytes} (hh : x.state.hunt = false)
    (hc : x.state.cfg.cap < x.state.wo + c.length) (n : Nat) :
    processLoop (n + 1) x c = processLoop n (overflowed x) c := by
  rw [processLoop, if_neg (by simp [hh]), if_pos hc]

theorem processLoop_fits {x : Progress} {c : Bytes} (hh : x.state.hunt = false)
    (hc : x.state.wo + c.length ≤ x.state.cfg.cap) (n : Nat) : processLoop (n + 1) x c = some (absorb x c) := by
  rw [processLoop, if_neg (by simp [hh]), if_neg (Nat.not_lt.2 hc)]

/-- Settles O41: at most one pass comes before the hunt. -/
theorem processIsTheLoopOfR163 : Obligations.ProcessIsTheLoopOfR163 := by
  intro s c
  obtain ⟨hh, e⟩ | ⟨hh, hc, e⟩ | ⟨hh, hc, e⟩ := process_cases s c <;> rw [e]
  · exact processLoop_hunts hh (by omega)
  · exact (processLoop_overflows (x := ⟨s, []⟩) hh hc _).trans (processLoop_hunts rfl (by omega))
  · exact processLoop_fits (x := ⟨s, []⟩) hh hc _

/-- One step of the scan, where the first index is inside the buffer. -/
theorem bufFirstZero_succ {cap a : Nat} (m : Memory) (n : Nat) (h : a < cap) :
    bufFirstZero cap m a (n + 1) =
      if m.read a = 0x00#8 then .ok (some a) else bufFirstZero cap m (a + 1) n := by
  simp only [bufFirstZero, memRead_of_lt m h]

theorem bufFirstZero_succ_fault {cap a : Nat} (m : Memory) (n : Nat) (h : cap ≤ a) :
    bufFirstZero cap m a (n + 1) = .error (.bufOutOfRange a) := by
  simp only [bufFirstZero, memRead_of_ge m h]

/-- Where the scan answers `i`, that is the first 0x00; where it answers none, there is none. -/
theorem bufFirstZero_spec {cap : Nat} {m : Memory} {a n : Nat} {r : Option Nat}
    (h : bufFirstZero cap m a n = .ok r) :
    (∀ i ∈ r, a ≤ i ∧ i < a + n ∧ m.read i = 0x00#8) ∧ ∀ j, a ≤ j → j < r.getD (a + n) → m.read j ≠ 0x00#8 := by
  induction n generalizing a with
  | zero =>
    cases h
    exact ⟨nofun, fun j hj hj' => absurd hj (Nat.not_le.2 hj')⟩
  | succ n ih =>
    rcases Nat.lt_or_ge a cap with hc | hc
    · rw [bufFirstZero_succ m n hc] at h
      split at h
      · next h0 =>
        cases h
        exact ⟨fun i hi => by cases hi; exact ⟨le_refl _, by omega, h0⟩, fun j hj hj' => absurd hj (Nat.not_le.2 hj')⟩
      · next h0 =>
        obtain ⟨hfound, hbefore⟩ := ih h
        rw [Nat.add_right_comm] at hbefore
        refine ⟨fun i hi => ?_, fun j hj hj' => ?_⟩
        · obtain ⟨h1, h2, h3⟩ := hfound i hi
          exact ⟨by omega, by omega, h3⟩
        · rcases Nat.eq_or_lt_of_le hj with rfl | hlt
          · exact h0
          · exact hbefore j hlt hj'
    · rw [bufFirstZero_succ_fault m n hc] at h
      cases h

/-- The scan reads its range only. -/
theorem bufFirstZero_congr {cap : Nat} {m m' : Memory} {a n : Nat}
    (h : ∀ j, a ≤ j → j < a + n → m'.read j = m.read j) : bufFirstZero cap m' a n = bufFirstZero cap m a n := by
  induction n generalizing a with
  | zero => rfl
  | succ n ih =>
    rcases Nat.lt_or_ge a cap with hc | hc
    · rw [bufFirstZero_succ m' n hc, bufFirstZero_succ m n hc, h a (le_refl _) (by omega),
        ih fun j hj hj' => h j (by omega) (by omega)]
    · rw [bufFirstZero_succ_fault m' n hc, bufFirstZero_succ_fault m n hc]

/-- Settles O42: what the scan's answer says, and that it depends on its range only. -/
theorem scanFindsTheFirstZeroFromTheCursor : Obligations.ScanFindsTheFirstZeroFromTheCursor := by
  refine fun cap m a n => ⟨fun i h => ?_, fun h => (bufFirstZero_spec h).2, fun m' => bufFirstZero_congr⟩
  obtain ⟨hfound, hbefore⟩ := bufFirstZero_spec h
  obtain ⟨h1, h2, h3⟩ := hfound i rfl
  exact ⟨h1, h2, h3, hbefore⟩

end Sys2Proof.Machine
end

section
/-! SUPPORT. Hunting (41_reassembler.md R169, R170): PROCESS carries the events it starts with in front and never reads
the latched chunk, so an overflow or a lost frame may be taken out of its work. -/

namespace Sys2Proof.Machine

/-- The same work with events in front and another chunk in the latch. -/
def Progress.rebase (x : Progress) (pre : List Event) (l : Bytes) : Progress :=
  { state := { x.state with pend := l }, events := pre ++ x.events }

/-- The same outcome with events in front and another chunk in the latch. -/
def Processed.rebase (pre : List Event) (l : Bytes) (p : Processed) : Processed :=
  { p with state := { p.state with pend := l }, events := pre ++ p.events }

@[simp] theorem Progress.rebase_cfg (x : Progress) (pre : List Event) (l : Bytes) :
    (x.rebase pre l).state.cfg = x.state.cfg := rfl
@[simp] theorem Progress.rebase_wo (x : Progress) (pre : List Event) (l : Bytes) :
    (x.rebase pre l).state.wo = x.state.wo := rfl

theorem overflowed_rebase (x : Progress) (pre : List Event) (l : Bytes) :
    overflowed (x.rebase pre l) = (overflowed x).rebase pre l :=
  congrArg (Progress.mk _) (List.append_assoc pre x.events _)

theorem frameToPacket_rebase (x : Progress) (pre : List Event) (l : Bytes) (frame : Bytes) :
    frameToPacket (x.rebase pre l) frame = (frameToPacket x frame).rebase pre l := by
  simp only [frameToPacket, Progress.rebase_cfg]
  split
  · exact congrArg (Processed.mk _ · _) (List.append_assoc pre x.events _)
  · split
    · rfl
    · exact congrArg (Processed.mk _ · _) (List.append_assoc pre x.events _)
    · exact congrArg (Processed.mk _ · _) (List.append_assoc pre x.events _)

/-- A pass whose chunk fits takes the same branch, since BUF, WO and SC are the same. -/
theorem absorb_rebase (x : Progress) (pre : List Event) (l : Bytes) (c : Bytes) :
    absorb (x.rebase pre l) c = (absorb x c).map (Processed.rebase pre l) := by
  simp only [absorb, Progress.rebase]
  cases memWriteRange x.state.cfg.cap x.state.mem x.state.wo c with
  | error f => rfl
  | ok m =>
    dsimp only
    cases bufFirstZero x.state.cfg.cap m x.state.sc (x.state.wo + c.length - x.state.sc) with
    | error f => rfl
    | ok found =>
      cases found with
      | none => rfl
      | some i =>
        dsimp only
        cases memReadRange x.state.cfg.cap m 0 i with
        | error f => rfl
        | ok frame =>
          dsimp only
          cases memReadRange x.state.cfg.cap m (i + 1) (x.state.wo + c.length - i - 1) with
          | error f => rfl
          | ok rem =>
            dsimp only
            cases memWriteRange x.state.cfg.cap m 0 rem with
            | error f => rfl
            | ok m' =>
              exact congrArg Except.ok
                (frameToPacket_rebase ⟨{ x.state with mem := m', wo := _, sc := 0 }, x.events⟩ pre l frame)

theorem huntOn_rebase (x : Progress) (pre : List Event) (l : Bytes) (c : Bytes) :
    huntOn (x.rebase pre l) c = (huntOn x c).map (Processed.rebase pre l) := by
  induction c generalizing x with
  | nil => rfl
  | cons b c ih =>
    by_cases hb : b = 0x00#8
    · subst hb
      rw [huntOn_zero, huntOn_zero, Progress.rebase_cfg, Progress.rebase_wo]
      split
      · rw [← ih, ← overflowed_rebase]; rfl
      · rw [← absorb_rebase]; rfl
    · have hskip : ZeroFree [b] := by simpa [ZeroFree] using hb
      rw [← List.singleton_append, huntOn_lost x hskip, huntOn_lost _ hskip, ih]

/-- From an emptied block hunting always answers: what it processes after a delimiter is tested against CAP first. -/
theorem huntOn_answers {x : Progress} (hwo : x.state.wo = 0) (hsc : x.state.sc = 0) (c : Bytes) :
    ∃ p, huntOn x c = .ok p := by
  refine huntOn_induct (motive := fun x _ r => x.state.wo = 0 → x.state.sc = 0 → ∃ p, r = .ok p)
    (fun x _ _ => ⟨_, rfl⟩) (fun x b c r ih => ih) (fun x c r ih _ _ => ih rfl rfl) (fun x c hc hwo hsc => ?_) x c hwo hsc
  rcases zero_split c with hz | ⟨frame, rem, he, hz⟩
  · exact ⟨_, absorb_wait (x := ⟨x.state.endHunt, x.events⟩) (live := []) hwo.symm (.nil _ _) (by simp [hwo, hsc]) hc hz⟩
  · exact ⟨_, absorb_extract (x := ⟨x.state.endHunt, x.events⟩) (live := []) hwo.symm (.nil _ _) (by simp [hwo, hsc])
      (fun _ hb => by simp at hb) hc he hz⟩

/-- The emptied, hunting block that an overflow goes on from (R169). -/
def State.overflowing (s : State) : State := (s.count .overflow).discard

/-- An overflow puts its event in front of what the emptied block answers. -/
theorem process_overflowing {s : State} {c : Bytes} (hh : s.hunt = false) (hc : s.cfg.cap < s.wo + c.length) :
    ∃ p, process s.overflowing c = .ok p ∧ process s c = .ok (p.rebase [⟨.overflow, none⟩] s.pend) := by
  obtain ⟨p, hp⟩ := huntOn_answers (x := ⟨s.overflowing, []⟩) rfl rfl c
  refine ⟨p, (process_hunts rfl c).trans hp, ?_⟩
  calc process s c
      = huntOn (overflowed ⟨s, []⟩) c := process_overflows hh hc
    _ = (huntOn ⟨s.overflowing, []⟩ c).map (Processed.rebase [⟨.overflow, none⟩] s.pend) :=
        huntOn_rebase ⟨s.overflowing, []⟩ [⟨.overflow, none⟩] s.pend c
    _ = .ok (p.rebase [⟨.overflow, none⟩] s.pend) := congrArg _ hp

/-- Settles O38: the latch and the owner are the same in both states. -/
theorem overflowDiscardsAndHuntsThroughTheChunk : Obligations.OverflowDiscardsAndHuntsThroughTheChunk := by
  intro s hh hc
  obtain ⟨p, hp, hp'⟩ := process_overflowing hh hc
  have hdel : p.state.deliveries = s.deliveries := (process_outside hp).deliveries
  refine ⟨p.state.unlatch, p.packet, p.events, complete_next_iff.2 ⟨p, hp, ?_⟩, complete_next_iff.2 ⟨_, hp', ?_⟩⟩
  · rw [← hdel]; rfl
  · rw [← hdel]; rfl

/-- PROCESS does not read the latch. -/
theorem process_withPend (s : State) (l c : Bytes) :
    process { s with pend := l } c = (process s c).map (Processed.rebase [] l) := by
  obtain ⟨hh, e⟩ | ⟨hh, hc, e⟩ | ⟨hh, hc, e⟩ := process_cases s c <;> rw [e]
  · exact (process_hunts (s := { s with pend := l }) hh c).trans (huntOn_rebase ⟨s, []⟩ [] l c)
  · exact (process_overflows (s := { s with pend := l }) hh hc).trans (huntOn_rebase (overflowed ⟨s, []⟩) [] l c)
  · exact (process_fits (s := { s with pend := l }) hh hc).trans (absorb_rebase ⟨s, []⟩ [] l c)

/-- Behind the delimiter a hunting block processes what one that does not hunt would (R170). -/
theorem process_hunts_delimiter {s : State} (hh : s.hunt = true) {lost : Bytes} (hz : ZeroFree lost) (rest : Bytes) :
    process s (lost ++ 0x00#8 :: rest) = process s.endHunt rest := by
  rw [process_hunts hh, huntOn_lost _ hz, huntOn_zero]
  split
  · next hc => exact (process_overflows (s := s.endHunt) rfl hc).symm
  · next hc => exact (process_fits (s := s.endHunt) rfl (Nat.not_lt.1 hc)).symm

theorem complete_hunts_on {s : State} (hh : s.hunt = true) (hz : ZeroFree s.pend) :
    complete s = .next (s.unlatch.deliverTo s.owner (.chunk none [])) :=
  complete_next_iff.2 ⟨_, (process_hunts hh s.pend).trans (huntOn_zeroFree _ hz), rfl⟩

/-- Settles O39: the lost bytes are read by the hunt only, and COMPLETE clears the latch that held them. -/
theorem huntDiscardsThroughTheNextDelimiter : Obligations.HuntDiscardsThroughTheNextDelimiter := by
  refine ⟨fun s => complete_hunts_on, fun s lost rest hh hp hz => ?_⟩
  have hs : process s s.pend = process s.endHunt rest := hp ▸ process_hunts_delimiter hh hz rest
  have ht := process_withPend s.endHunt rest rest
  change complete s = complete { s.endHunt with pend := rest }
  simp only [complete, hs, ht]
  cases process s.endHunt rest <;> rfl

end Sys2Proof.Machine
end

section
/-! SUPPORT. The events of a response (60_exceptions.md R261, R269): only the overflow branch raises OVERFLOW, and COMPLETE
never raises BUSY_DROP. -/

namespace Sys2Proof.Machine

/-- A chunk that fits raises no event but its frame's. -/
theorem absorb_events {x : Progress} {c : Bytes} {p : Processed} (h : absorb x c = .ok p) :
    ∃ last, p.events = x.events ++ last ∧ ∀ v ∈ last, v.code ≠ .overflow ∧ v.code ≠ .busyDrop := by
  rcases absorb_cases h with ⟨m, rfl⟩ | ⟨m, r, frame, rfl⟩
  · exact ⟨[], (List.append_nil _).symm, nofun⟩
  · obtain ⟨n, hn⟩ := frameToPacket_eq ⟨{ x.state with mem := m, wo := r, sc := 0 }, x.events⟩ frame
    rw [hn]
    refine ⟨_, rfl, fun v hv => ?_⟩
    obtain ⟨p, hp⟩ | ⟨w, ho, hb, hw⟩ := frameAnswer_cases x.state.cfg.kindMap frame
    · rw [hp] at hv; cases hv
    · rw [hw] at hv
      cases List.mem_singleton.1 hv
      exact ⟨ho, hb⟩

/-- No event in the list is BUSY_DROP. -/
def NoDrop (evs : List Event) : Prop := ∀ v ∈ evs, v.code ≠ .busyDrop

theorem NoDrop.nil : NoDrop [] := fun _ hv => nomatch hv

theorem NoDrop.append {xs ys : List Event} (hx : NoDrop xs) (hy : NoDrop ys) : NoDrop (xs ++ ys) :=
  fun v hv => (List.mem_append.1 hv).elim (hx v) (hy v)

theorem NoDrop.count_eq_zero {evs : List Event} (h : NoDrop evs) : eventCount .busyDrop evs = 0 := by
  have hcode : ∀ v ∈ evs, v.code ≠ .busyDrop := h
  simpa [eventCount] using hcode

theorem absorb_noDrop {x : Progress} {c : Bytes} {p : Processed} (hx : NoDrop x.events) (h : absorb x c = .ok p) :
    NoDrop p.events := by
  obtain ⟨last, hp, hlast⟩ := absorb_events h
  exact hp ▸ hx.append fun v hv => (hlast v hv).2

theorem overflowed_noDrop {x : Progress} (hx : NoDrop x.events) : NoDrop (overflowed x).events :=
  hx.append fun v hv => by cases List.mem_singleton.1 hv; exact nofun

theorem huntOn_noDrop {x : Progress} {c : Bytes} {p : Processed} (hx : NoDrop x.events) (h : huntOn x c = .ok p) :
    NoDrop p.events := by
  refine huntOn_induct (motive := fun x _ r => NoDrop x.events → ∀ p, r = .ok p → NoDrop p.events)
    (fun x hx p h => ?_) (fun x b c r ih => ih) (fun x c r ih hx => ih ?_) (fun x c _ hx p h => ?_) x c hx p h
  · cases h
    exact hx
  · exact overflowed_noDrop (x := { x with state := x.state.endHunt }) hx
  · exact absorb_noDrop (x := { x with state := x.state.endHunt }) hx h

theorem process_noDrop {s : State} {c : Bytes} {p : Processed} (h : process s c = .ok p) : NoDrop p.events := by
  obtain ⟨-, e⟩ | ⟨-, -, e⟩ | ⟨-, -, e⟩ := process_cases s c <;> rw [e] at h
  · exact huntOn_noDrop .nil h
  · exact huntOn_noDrop (overflowed_noDrop (x := ⟨s, []⟩) .nil) h
  · exact absorb_noDrop .nil h

/-- Settles O44: the overflow branch puts OVERFLOW in front, and a chunk that fits raises none. -/
theorem overflowExactlyWhenTheChunkPassesCap : Obligations.OverflowExactlyWhenTheChunkPassesCap := by
  intro s h hh
  obtain ⟨t, ht⟩ := complete_answers h
  obtain ⟨p, hp, rfl⟩ := complete_next_iff.1 ht
  refine ⟨_, p.packet, p.events, ht, ?_, ?_⟩
  · rw [State.deliverTo_deliveries, State.unlatch_deliveries, (process_outside hp).deliveries]
  · rcases Nat.lt_or_ge s.cfg.cap (s.wo + s.pend.length) with hc | hc
    · obtain ⟨p', -, hp'⟩ := process_overflowing hh hc
      cases hp.symm.trans hp'
      exact iff_of_true (List.mem_cons_self ..) hc
    · obtain ⟨last, he, hlast⟩ := absorb_events ((process_fits hh hc).symm.trans hp)
      refine iff_of_false (fun hv => ?_) (Nat.not_lt.2 hc)
      rw [he] at hv
      exact (hlast _ hv).1 rfl

end Sys2Proof.Machine
end

section
/-! SUPPORT. COMPLETE of an empty chunk (41_reassembler.md R172). -/

namespace Sys2Proof.Machine

/-- Settles O40: an empty chunk fits, stores nothing, and leaves the buffered bytes to the scan. -/
theorem emptyChunkDrainsOneFrame : Obligations.EmptyChunkDrainsOneFrame := by
  intro s live hinv hb hp hl
  have hbuf := hinv.buffers hl
  have hc : s.wo + s.pend.length ≤ s.cfg.cap := by simpa [hp] using hinv.wo_le
  constructor
  · intro hnone
    cases hh : s.hunt with
    | true =>
      obtain ⟨hwo, hsc⟩ := hinv.hunting hh
      have hz : ZeroFree s.pend := hp ▸ nofun
      rw [complete_hunts_on hh hz]
      simp [State.unlatch, State.deliverTo, hh, hp, hwo, hsc]
    | false =>
      have hz : ZeroFree live := hnone.resolve_left (by simp [hh])
      rw [complete_wait hbuf hh hc (by rwa [hp, List.append_nil])]
      rw [State.completed, hp, hh]
      rfl
  · intro frame rem he hz
    have hh : s.hunt = false := by
      by_contra hh
      obtain ⟨hwo, -⟩ := hinv.hunting (by simpa using hh)
      have hlen := hbuf.length
      rw [he, hwo] at hlen
      simp at hlen
    have hc' := hbuf.rem_length_lt (c := []) ((List.append_nil _).trans he)
    obtain ⟨n, ht⟩ := complete_extract hbuf hh hc (by rwa [hp, List.append_nil]) hz
    refine ⟨_, _, _, ht, rfl, rfl, State.holds_of_has rfl (Memory.has_writeAll _ 0 rem) ?_, rfl, ?_⟩
    · show rem.length ≤ s.cfg.cap
      simp only [List.length_nil, Nat.add_zero] at hc'
      exact hc'.le.trans hinv.wo_le
    · obtain ⟨p, ha⟩ | ⟨v, -, -, ha⟩ := frameAnswer_cases s.cfg.kindMap frame <;> rw [ha]
      · exact .inl ⟨rfl, rfl⟩
      · exact .inr ⟨rfl, rfl⟩

end Sys2Proof.Machine
end

section
/-! SUPPORT. Rounds of a waiting host among the other agents' transactions (41_reassembler.md R160, R174). -/

namespace Sys2Proof.Machine

/-- An instruction that is neither CHUNK nor RESET is answered with a record of its own command. -/
theorem exec_responds_otherwise {i : Instr} (hc : ∀ c, i ≠ .chunk c) (hr : i ≠ .reset) (s : State) :
    ∃ r, exec i s = .next (s.respond r) ∧ Delivery.ofChunk ⟨s.agent, r⟩ = false := by
  cases i with
  | chunk c => exact absurd rfl (hc c)
  | reset => exact absurd rfl hr
  | build k p =>
    refine ⟨_, rfl, ?_⟩
    rw [buildResponse]
    split <;> rfl
  | rdcnt n =>
    refine ⟨_, rfl, ?_⟩
    rw [rdcntResponse]
    split <;> rfl
  | _ => exact ⟨_, rfl, rfl⟩

/-- The stimuli of transactions that agents present. -/
def presents (xs : List (Nat × Bytes)) : List Stimulus := xs.map fun x => .present x.1 x.2

/-- Quiet transactions are answered one by one, and nothing of the block changes. -/
theorem run_quiet {s : State} {q : List Stimulus} (xs : List (Nat × Bytes)) (hx : ∀ x ∈ xs, Quiet x.2)
    (hq : s.queue = presents xs ++ q) :
    ∃ a new, Sys2Proof.core.run xs.length s
        = .next { s with queue := q, agent := a, deliveries := s.deliveries ++ new } ∧
      new.length = xs.length ∧ new.filter Delivery.ofChunk = [] := by
  induction xs generalizing s with
  | nil =>
    refine ⟨s.agent, [], ?_, rfl, rfl⟩
    rw [List.append_nil, ← show s.queue = q from hq]
    rfl
  | cons x xs ih =>
    obtain ⟨hreset, hchunk⟩ := hx x (List.mem_cons_self ..)
    obtain ⟨r, hr, hother⟩ :=
      exec_responds_otherwise hchunk hreset { s with queue := presents xs ++ q, agent := x.1 }
    obtain ⟨a, new, hrun, hlen, hnew⟩ := ih (s := State.respond { s with queue := presents xs ++ q, agent := x.1 } r)
      (fun y hy => hx y (List.mem_cons_of_mem _ hy)) rfl
    refine ⟨a, ⟨x.1, r⟩ :: new, ?_, by simp [hlen], by simp [hnew, hother]⟩
    rw [List.length_cons, run_succ _ ((step_of_queue_present hq).trans hr), hrun]
    simp [State.respond, State.deliverTo]

/-- In `k` steps from `s` to the idle state `t` agent `a`'s chunks got the answers in order, none of them BUSY_DROP, and
every other stimulus but the chunks' COMPLETEs one response of its own. -/
structure Serves (a k : Nat) (s t : State) (answers : List (Option Packet × List Event)) : Prop where
  run        : Sys2Proof.core.run k s = .next t
  inv        : t.Inv
  idle       : t.busy = false
  dropped    : t.cnt.busyDrop = s.cnt.busyDrop
  deliveries : ∃ new : List Delivery, t.deliveries = s.deliveries ++ new ∧
    new.filter Delivery.ofChunk = answers.map (fun x => ⟨a, .chunk x.1 x.2⟩) ∧ new.length + answers.length = k
  noDrop     : ∀ x ∈ answers, eventCount .busyDrop x.2 = 0

theorem Serves.refl {s : State} (a : Nat) (h : s.Inv) (hb : s.busy = false) : Serves a 0 s s [] :=
  ⟨rfl, h, hb, rfl, ⟨[], (List.append_nil _).symm, rfl, rfl⟩, nofun⟩

theorem Serves.trans {a k l : Nat} {s t u : State} {xs ys : List (Option Packet × List Event)}
    (h : Serves a k s t xs) (h' : Serves a l t u ys) : Serves a (k + l) s u (xs ++ ys) := by
  obtain ⟨new, hnew, hans, hlen⟩ := h.deliveries
  obtain ⟨new', hnew', hans', hlen'⟩ := h'.deliveries
  refine ⟨(run_append l h.run).trans h'.run, h'.inv, h'.idle, h'.dropped.trans h.dropped, ⟨new ++ new', ?_, ?_, ?_⟩,
    fun x hx => (List.mem_append.1 hx).elim (h.noDrop x) (h'.noDrop x)⟩
  · rw [hnew', hnew, List.append_assoc]
  · rw [List.filter_append, hans, hans', List.map_append]
  · rw [List.length_append, List.length_append]
    omega

theorem Round.schedule_eq (a : Nat) (r : Round) (q : List Stimulus) :
    r.schedule a ++ q = presents r.before ++
      .present a (encode Config.reference (.chunk r.chunk)) :: (presents r.between ++ .complete :: q) := by
  simp [Round.schedule, presents]

theorem Round.schedule_length (a : Nat) (r : Round) :
    (r.schedule a).length = r.before.length + (r.between.length + 1 + 1) := by
  simp [Round.schedule]

/-- Quiet transactions in an idle block. -/
theorem serves_quiet {s : State} (a : Nat) {q : List Stimulus} {xs : List (Nat × Bytes)} (h : s.Inv)
    (hb : s.busy = false) (hx : ∀ x ∈ xs, Quiet x.2) (hq : s.queue = presents xs ++ q) :
    ∃ t, Serves a xs.length s t [] ∧ t.queue = q := by
  obtain ⟨b, new, hrun, hlen, hnew⟩ := run_quiet xs hx hq
  exact ⟨_, ⟨hrun, h.of_eq rfl, hb, rfl, ⟨new, rfl, hnew, hlen⟩, nofun⟩, rfl⟩

/-- A chunk presented to an idle block, with quiet transactions between its ACCEPT and its COMPLETE. -/
theorem serves_chunk {s : State} {a : Nat} {c : Bytes} {q : List Stimulus} {xs : List (Nat × Bytes)} (h : s.Inv)
    (hb : s.busy = false) (hx : ∀ x ∈ xs, Quiet x.2)
    (hq : s.queue = .present a (encode Config.reference (.chunk c)) :: (presents xs ++ .complete :: q)) :
    ∃ t x, Serves a (xs.length + 1 + 1) s t [x] ∧ t.queue = q := by
  have haccept := step_accept hb hq
  obtain ⟨b, new, hrun, hlen, hnew⟩ := run_quiet (s := s.accepted a c (presents xs ++ .complete :: q)) xs hx rfl
  have hinv : State.Inv { s.accepted a c q with agent := b, deliveries := s.deliveries ++ new } :=
    (State.Inv.latch (s := { s with queue := q, agent := a }) (h.of_eq rfl) c).of_eq rfl
  obtain ⟨t, ht⟩ := complete_answers hinv
  obtain ⟨p, hp, rfl⟩ := complete_next_iff.1 ht
  have hout := process_outside hp
  have hdel : p.state.deliveries = s.deliveries ++ new := hout.deliveries
  refine ⟨_, (p.packet, p.events), ⟨?_, complete_inv hinv ht, rfl, hout.dropped,
    ⟨new ++ [⟨a, .chunk p.packet p.events⟩], ?_, ?_, ?_⟩, ?_⟩, hout.queue⟩
  · rw [run_succ _ haccept, run_append 1 hrun, run_one]
    exact (step_of_queue_complete rfl).trans ht
  · rw [← List.append_assoc, ← hdel]
    rfl
  · rw [List.filter_append, hnew]
    rfl
  · simp [hlen]
  · exact fun x hx => by cases List.mem_singleton.1 hx; exact (process_noDrop hp).count_eq_zero

/-- A round: quiet transactions, then the chunk. -/
theorem serves_round {s : State} {a : Nat} {r : Round} {q : List Stimulus} (h : s.Inv) (hb : s.busy = false)
    (hx : ∀ x ∈ r.before ++ r.between, Quiet x.2) (hq : s.queue = r.schedule a ++ q) :
    ∃ t x, Serves a (r.schedule a).length s t [x] ∧ t.queue = q := by
  rw [Round.schedule_eq] at hq
  obtain ⟨t, hbefore, hqueue⟩ := serves_quiet a h hb (fun x hm => hx x (List.mem_append_left _ hm)) hq
  obtain ⟨u, x, hchunk, hqueue'⟩ :=
    serves_chunk hbefore.inv hbefore.idle (fun x hm => hx x (List.mem_append_right _ hm)) hqueue
  exact ⟨u, x, Round.schedule_length a r ▸ hbefore.trans hchunk, hqueue'⟩

theorem serves_rounds {s : State} {a : Nat} {q : List Stimulus} (rounds : List Round) (h : s.Inv) (hb : s.busy = false)
    (hx : ∀ r ∈ rounds, ∀ x ∈ r.before ++ r.between, Quiet x.2)
    (hq : s.queue = rounds.flatMap (Round.schedule a) ++ q) :
    ∃ t answers, Serves a (rounds.flatMap (Round.schedule a)).length s t answers ∧ t.queue = q ∧
      answers.length = rounds.length := by
  induction rounds generalizing s with
  | nil => exact ⟨s, [], .refl a h hb, hq, rfl⟩
  | cons r rounds ih =>
    rw [List.flatMap_cons, List.append_assoc] at hq
    obtain ⟨t, x, hserves, hqueue⟩ := serves_round h hb (hx r (List.mem_cons_self ..)) hq
    obtain ⟨u, answers, hserves', hqueue', hlen⟩ :=
      ih hserves.inv hserves.idle (fun r' hr' => hx r' (List.mem_cons_of_mem _ hr')) hqueue
    refine ⟨u, x :: answers, ?_, hqueue', by rw [List.length_cons, List.length_cons, hlen]⟩
    rw [List.flatMap_cons, List.length_append]
    exact hserves.trans hserves'

/-- Settles O35: every round begins and ends idle. -/
theorem aWaitingHostLosesNoChunk : Obligations.AWaitingHostLosesNoChunk := by
  intro s a rounds q h hb hx hq
  obtain ⟨t, answers, hserves, hqueue, hlen⟩ := serves_rounds rounds h hb hx hq
  obtain ⟨new, hnew, hans, hcount⟩ := hserves.deliveries
  exact ⟨t, hserves.run, hqueue, hserves.idle, hserves.dropped, new, answers, hnew, hans, hlen, hserves.noDrop,
    hlen ▸ hcount⟩

end Sys2Proof.Machine
end

section
/-! SUPPORT. DISC by the kind its first byte names (42_packet.md R202, R203), at the reference mapping (30_encoding.md
R83), and the kind-byte rows as the DISC of their bytes. -/

namespace Sys2Proof

/-- At the reference mapping the bytes that name no kind are 0x05 to 0xFF (R203). -/
theorem KindMap.reference_kindOf?_eq_none_iff {k : Byte} : KindMap.reference.kindOf? k = none ↔ 0x05#8 ≤ k := by
  rw [KindMap.kindOf?_eq_none_iff]
  simp only [KindMap.values, KindMap.reference, List.mem_cons, List.not_mem_nil, or_false, not_or]
  constructor <;> intro h <;> bv_omega

end Sys2Proof

namespace Sys2Proof.Machine

theorem exec_disc_nil (s : State) : exec (.disc []) s = .next (s.respond (.disc .empty)) := rfl

theorem exec_disc_of_kind {s : State} {k : Byte} {kind : Kind} (h : s.cfg.kindMap.kindOf? k = some kind) (p : Bytes) :
    exec (.disc (k :: p)) s = .next (s.respond (kindResponse kind p)) := by
  rw [exec_disc, discriminate_of_kind h, kindResponse]

theorem exec_disc_of_no_kind {s : State} {k : Byte} (h : s.cfg.kindMap.kindOf? k = none) (p : Bytes) :
    exec (.disc (k :: p)) s = .next (s.respond (.disc (.unknown k))) := by
  rw [exec_disc, discriminate_of_no_kind h]

/-- Settles O23: the reference mapping gives 0x00 to 0x04 to the five kinds and the bytes from 0x05 to none. -/
theorem discAnswersTheKindOfTheFirstByte : Obligations.DiscAnswersTheKindOfTheFirstByte := by
  intro s href
  have hkind {k : Byte} {kind : Kind} (h : KindMap.reference.kindOf? k = some kind) (p : Bytes) :
      exec (.disc (k :: p)) s = .next (s.respond (kindResponse kind p)) := exec_disc_of_kind (href ▸ h) p
  exact ⟨exec_disc_nil s, hkind rfl, hkind rfl, hkind rfl, hkind rfl, hkind rfl,
    fun k p hk => exec_disc_of_no_kind (href ▸ KindMap.reference_kindOf?_eq_none_iff.2 hk) p⟩

theorem exec_kindRow (kind : Kind) (p : Bytes) (s : State) :
    exec (kindRow kind p) s = .next (s.respond (kindResponse kind p)) := by
  cases kind <;> rfl

theorem exec_kindUnknown (k : Byte) (rest : Bytes) (s : State) :
    exec (.kindUnknown k rest) s = .next (s.respond (.disc (.unknown k))) := rfl

/-- The row of a kind answers what DISC of its bytes answers: the byte is read back as the kind. -/
theorem exec_kindRow_eq_disc {s : State} (h : s.cfg.wf = true) (kind : Kind) (p : Bytes) :
    exec (kindRow kind p) s = exec (.disc (encode s.cfg (kindRow kind p))) s := by
  rw [encode_kindRow, exec_disc_of_kind (KindMap.kindOf?_valueOf (Config.wf_iff.1 h).2 kind), exec_kindRow]

/-- A row of the kind-byte space answers what DISC of its bytes answers. -/
theorem exec_kindByteRow {s : State} {i : Instr} (h : s.cfg.wf = true) (hi : i.space = .kindByte)
    (hw : i.wellFormed s.cfg = true) : exec i s = exec (.disc (encode s.cfg i)) s := by
  cases i with
  | kindLog p => exact exec_kindRow_eq_disc h .log p
  | kindVideo p => exact exec_kindRow_eq_disc h .video p
  | kindSound p => exact exec_kindRow_eq_disc h .sound p
  | kindNetwork p => exact exec_kindRow_eq_disc h .network p
  | kindInput p => exact exec_kindRow_eq_disc h .input p
  | kindUnknown k rest =>
    have hk : k ∉ s.cfg.kindMap.values := by simpa [Instr.wellFormed] using hw
    exact (exec_kindUnknown k rest s).trans (exec_disc_of_no_kind (KindMap.kindOf?_eq_none_iff.2 hk) rest).symm
  | _ => cases hi

/-- Settles O25: the rows of the five kinds, the row of the other bytes, and each as the DISC of its bytes. -/
theorem kindByteRowsAnswerTheirPacket : Obligations.KindByteRowsAnswerTheirPacket := fun s p =>
  ⟨exec_kindRow .log p s, exec_kindRow .video p s, exec_kindRow .sound p s, exec_kindRow .network p s,
    exec_kindRow .input p s, fun k => exec_kindUnknown k p s, fun _ => exec_kindByteRow⟩

/-- What a message that gives a packet is made of: the kind's value, then the payload (R202, R205). -/
theorem eq_valueOf_cons_of_discriminate {km : KindMap} {m : Bytes} {x : Packet} (h : discriminate km m = .ok x) :
    m = km.valueOf x.kind :: x.payload := by
  match m with
  | [] => cases h
  | k :: p =>
    cases hk : km.kindOf? k with
    | none => cases (discriminate_of_no_kind hk p).symm.trans h
    | some kind =>
      cases (discriminate_of_kind hk p).symm.trans h
      rw [KindMap.valueOf_of_kindOf? hk]

/-- Settles O26: the message is the kind's value and the payload. -/
theorem payloadIsTheMessageAfterTheKindByte : Obligations.PayloadIsTheMessageAfterTheKindByte := by
  intro km m x h
  rw [eq_valueOf_cons_of_discriminate h]
  exact ⟨rfl, rfl, List.cons_ne_nil _ _, rfl⟩

end Sys2Proof.Machine
end

section
/-! SUPPORT. BUILD by its kind byte, at the reference mapping (43_outbound.md R220, R221; 30_encoding.md R83). -/

namespace Sys2Proof

/-- At the reference mapping the values of the kinds are 0x00 to 0x04 (R83). -/
theorem KindMap.mem_reference_values_iff {k : Byte} : k ∈ KindMap.reference.values ↔ k ≤ 0x04#8 := by
  rw [← not_iff_not, ← KindMap.kindOf?_eq_none_iff, KindMap.reference_kindOf?_eq_none_iff]
  constructor <;> intro h <;> bv_omega

end Sys2Proof

namespace Sys2Proof.Machine

theorem exec_build_of_no_kind {s : State} {k : Byte} (h : k ∉ s.cfg.kindMap.values) (p : Bytes) :
    exec (.build k p) s = .next (s.respond (.build .badKind [])) := by
  simp [exec, execBuild, buildResponse, KindMap.kindOf?_eq_none_iff.2 h]

/-- Settles O27: the kind byte is the value of a kind exactly up to 0x04, and either answer is all that BUILD writes. -/
theorem buildAnswersTheFrameOrBadKind : Obligations.BuildAnswersTheFrameOrBadKind := by
  refine ⟨fun k p => rfl, fun s k p href => ⟨fun hk => ?_, fun hk => ?_⟩⟩
  · exact exec_build_of_kind (href ▸ KindMap.mem_reference_values_iff.2 hk) p
  · exact exec_build_of_no_kind (href ▸ mt KindMap.mem_reference_values_iff.1 (BitVec.not_le.2 hk)) p

end Sys2Proof.Machine
end

section
/-! SUPPORT. The counters along the run of a host's chunks (10_state.md R36), and a built frame fed back through CHUNK
(43_outbound.md R222). -/

namespace Sys2Proof.Machine

/-- The events a delivered response reports (R85). -/
def Delivery.events (d : Delivery) : List Event :=
  match d.response with
  | .chunk _ evs => evs
  | _ => []

/-- From `s` to `t` responses were delivered, and the counters grew by the events in them (R36, R262). -/
def Counted (s t : State) : Prop :=
  ∃ new : List Delivery, t.deliveries = s.deliveries ++ new ∧ Tallied s.cnt t.cnt (new.flatMap Delivery.events)

theorem Tallied.trans {n m l : Counters} {xs ys : List Event} (h : Tallied n m xs) (h' : Tallied m l ys) :
    Tallied n l (xs ++ ys) := by
  intro e
  rw [h' e, h e, eventCount, eventCount, eventCount, List.filter_append, List.length_append, BitVec.ofNat_add,
    BitVec.add_assoc]

/-- Without an event every counter keeps its value. -/
theorem Tallied.eq_of_nil {n m : Counters} (h : Tallied n m []) : m = n := by
  have hget : ∀ e, m.get e = n.get e := fun e => (h e).trans (BitVec.add_zero _)
  exact (Counters.mk.injEq ..).mpr
    ⟨hget .busyDrop, hget .overflow, hget .frameTruncated, hget .frameEmpty, hget .unknownKind⟩

theorem Counted.refl (s : State) : Counted s s := ⟨[], (List.append_nil _).symm, Tallied.nil _⟩

theorem Counted.trans {s t u : State} (h : Counted s t) (h' : Counted t u) : Counted s u := by
  obtain ⟨new, hdel, hcnt⟩ := h
  obtain ⟨new', hdel', hcnt'⟩ := h'
  exact ⟨new ++ new', by rw [hdel', hdel, List.append_assoc], List.flatMap_append ▸ hcnt.trans hcnt'⟩

/-- Responses without an event leave the counters as they were. -/
theorem Counted.cnt_eq {s t : State} (h : Counted s t) {new : List Delivery}
    (hdel : t.deliveries = s.deliveries ++ new) (hnone : ∀ d ∈ new, d.events = []) : t.cnt = s.cnt := by
  obtain ⟨new', hdel', hcnt⟩ := h
  cases List.append_cancel_left (hdel.symm.trans hdel')
  exact Tallied.eq_of_nil (List.flatMap_eq_nil_iff.2 hnone ▸ hcnt)

theorem complete_counted {s t : State} (h : complete s = .next t) : Counted s t := by
  obtain ⟨p, evs, hdel, hcnt⟩ := complete_tallied h
  exact ⟨_, hdel, by simpa [Delivery.events] using hcnt⟩

/-- The state between the two parts of a run. -/
theorem exists_run_of_run_add {m n : Nat} {s t : State} (h : Sys2Proof.core.run (m + n) s = .next t) :
    ∃ u, Sys2Proof.core.run m s = .next u ∧ Sys2Proof.core.run n u = .next t := by
  induction m generalizing s with
  | zero => exact ⟨s, rfl, Nat.zero_add n ▸ h⟩
  | succ m ih =>
    rw [Nat.succ_add] at h
    simp only [Host.Core.run] at h ⊢
    cases hs : Sys2Proof.core.step s with
    | next s' =>
      rw [hs] at h
      exact ih h
    | fault r => rw [hs] at h; cases h
    | refused r => rw [hs] at h; cases h

/-- Over the chunks of a host that waits for each response the counters follow the responses. -/
theorem run_chunks_counted {s t : State} {a : Nat} {q : List Stimulus} (chunks : List Bytes) (hb : s.busy = false)
    (hq : s.queue = chunkSchedule a chunks ++ q) (h : Sys2Proof.core.run (2 * chunks.length) s = .next t) :
    Counted s t := by
  induction chunks generalizing s with
  | nil => cases h; exact .refl _
  | cons c chunks ih =>
    rw [chunkSchedule_cons] at hq
    rw [List.length_cons, Nat.mul_succ, Nat.add_comm] at h
    obtain ⟨u, hu, ht⟩ := exists_run_of_run_add h
    rw [run_chunk hb hq] at hu
    have hchunk : Counted s u := complete_counted (s := s.accepted a c _) hu
    obtain ⟨-, hqueue, -, -, hbusy, -⟩ := completeFrame _ _ hu
    exact hchunk.trans (ih hbusy hqueue ht)

/-- Settles O50: the frame's encoded part is read back from the pieces, and the responses report no event to count. -/
theorem builtFrameLoopsBack : Obligations.BuiltFrameLoopsBack := by
  intro s a kind p init last q hr hcfg hc hs hl hq
  have hlen : (cobsEnc (s.cfg.kindMap.valueOf kind :: p)).length + 1 ≤ s.cfg.cap := by
    simpa [buildFrame] using hc
  obtain ⟨t, u, ht, hdel, hans⟩ := run_frame_in_pieces hr.waits (cobsEnc_zeroFree _) hlen hs hl hq
  rw [frameAnswer_built hcfg ⟨kind, p⟩] at hans
  have hdeliv := hdel ▸ hans.deliveries
  have hcounted := run_chunks_counted (init ++ [last]) hr.busy hq (by simpa using ht)
  have hcnt : t.cnt = s.cnt := by
    refine hcounted.cnt_eq (hdeliv.trans (List.append_assoc ..)) fun d hd => ?_
    rcases List.mem_append.1 hd with hd | hd
    · cases List.eq_of_mem_replicate hd; rfl
    · cases List.mem_singleton.1 hd; rfl
  obtain ⟨hwo, hsc⟩ := hans.waits.wo_sc_of_nil
  exact ⟨t, ht, hdeliv, hwo, hsc, hcnt, hans.waits.inStep, hans.waits.idle⟩

end Sys2Proof.Machine
end

section
/-! SUPPORT. The control commands (44_control.md): which transactions are illegal (R242), the reset values (R240), and
the counters by their index (R241). -/

namespace Sys2Proof

/-- What is read as illegal is what has no command's shape. -/
theorem decode_eq_illegal_iff {w : Bytes} : decode w = .illegal w ↔ commandShape w = false := by
  refine ⟨fun h => ?_, (decode_reads w).eq_illegal⟩
  have hreads := decode_reads w
  rw [h] at hreads
  cases hreads with
  | illegal hw => exact hw

/-- The shapes that are no command's are the four cases of R242. -/
theorem commandShape_eq_false_iff {w : Bytes} : commandShape w = false ↔
    w = [] ∨ (∃ op rest, w = op :: rest ∧ (op = 0x00#8 ∨ 0x08#8 ≤ op)) ∨ w = [0x05#8] ∨
      (∃ rest, w = 0x07#8 :: rest ∧ rest.length ≠ 1) := by
  match w with
  | [] => simp [commandShape]
  | op :: operand =>
    by_cases h5 : op = 0x05#8
    · subst h5; simp [commandShape]
    by_cases h7 : op = 0x07#8
    · subst h7; simp [commandShape]
    · have hop : ¬ (0x01#8 ≤ op ∧ op ≤ 0x07#8) ↔ op = 0x00#8 ∨ 0x08#8 ≤ op := by
        constructor <;> intro h <;> bv_omega
      simpa [commandShape, h5, h7] using hop

/-- A transaction has a cause of R242 where it has no command's shape. -/
theorem illegalCause_isSome (w : Bytes) : (illegalCause w).isSome = !commandShape w := by
  match w with
  | [] => rfl
  | op :: operand =>
    by_cases h5 : op = 0x05#8
    · subst h5; cases operand <;> rfl
    by_cases h7 : op = 0x07#8
    · subst h7; by_cases hlen : operand.length = 1 <;> simp [illegalCause, commandShape, hlen]
    · have hop : (0x01#8 ≤ op ∧ op ≤ 0x07#8) ↔
          op = 0x01#8 ∨ op = 0x02#8 ∨ op = 0x03#8 ∨ op = 0x04#8 ∨ op = 0x06#8 := by
        constructor <;> intro h <;> bv_omega
      simp only [illegalCause, commandShape, h5, h7, if_false, hop]
      split <;> next h => simp [h]

end Sys2Proof

namespace Sys2Proof.Machine

/-- Settles O14: the illegal transactions are those without a command's shape, and their arm only responds. -/
theorem illegalCommandsAnswerAndChangeNothing : Obligations.IllegalCommandsAnswerAndChangeNothing := by
  refine ⟨fun w => decode_eq_illegal_iff.trans commandShape_eq_false_iff, fun w => ?_, fun _ _ => rfl, fun _ => rfl⟩
  rw [decode_eq_illegal_iff, illegalCause_isSome, Bool.not_eq_true']

theorem exec_reset (s : State) : exec .reset s = .next (s.clear.respond (.reset .ok)) := rfl

/-- An idle block holds its state where COMPLETE is scheduled (R276). -/
theorem step_complete_of_idle {t : State} (h : t.busy = false) (q : List Stimulus) :
    step { t with queue := .complete :: q } = .next { t with queue := q } := by
  rw [step_of_queue_complete rfl]
  simp [h]

/-- Settles O30: the registers of the cleared state, which is idle. -/
theorem resetClearsEverythingButTheBuffer : Obligations.ResetClearsEverythingButTheBuffer :=
  ⟨fun _ => rfl, fun s => ⟨_, exec_reset s, rfl, rfl, rfl, rfl, rfl, Counters.get_zero, rfl, fun _ => rfl, rfl, rfl, rfl,
    step_complete_of_idle rfl⟩⟩

/-- No counter has an index above 4. -/
theorem Counters.index_eq_none {n : Byte} (h : 0x04#8 < n) (c : Counters) : c.index n = none := by
  have hn : n ≠ 0x00#8 ∧ n ≠ 0x01#8 ∧ n ≠ 0x02#8 ∧ n ≠ 0x03#8 ∧ n ≠ 0x04#8 := by bv_omega
  simp [Counters.index, hn]

theorem exec_rdcnt_of_index {s : State} {n : Byte} {v : Counter} (h : s.cnt.index n = some v) :
    exec (.rdcnt n) s = .next (s.respond (.rdcnt .ok v)) := by
  simp [exec, execRdcnt, rdcntResponse, h]

theorem exec_rdcnt_of_no_index {s : State} {n : Byte} (h : s.cnt.index n = none) :
    exec (.rdcnt n) s = .next (s.respond (.rdcnt .badIndex 0#32)) := by
  simp [exec, execRdcnt, rdcntResponse, h]

/-- Settles O31: the five indexes have their counters, and no other has one. -/
theorem rdcntAnswersTheIndexedCounter : Obligations.RdcntAnswersTheIndexedCounter :=
  ⟨fun _ => rfl, fun s => ⟨exec_rdcnt_of_index rfl, exec_rdcnt_of_index rfl, exec_rdcnt_of_index rfl,
    exec_rdcnt_of_index rfl, exec_rdcnt_of_index rfl, fun _ hn => exec_rdcnt_of_no_index (s.cnt.index_eq_none hn)⟩⟩

end Sys2Proof.Machine
end

section
/-! SUPPORT. The order of a response's events (60_exceptions.md R269): OVERFLOWs from PROCESS's passes, then what the one
extracted frame gives. -/

namespace Sys2Proof.Machine

/-- What one frame may add to a response: no event, or one event of a frame and no packet (R263, R264, R269). -/
def FrameEvents (p : Option Packet) (last : List Event) : Prop :=
  last = [] ∨ (p = none ∧ (last = [⟨.frameTruncated, none⟩] ∨ last = [⟨.frameEmpty, none⟩] ∨
    ∃ k, last = [⟨.unknownKind, some k⟩]))

theorem FrameEvents.nil (p : Option Packet) : FrameEvents p [] := .inl rfl

theorem frameAnswer_frameEvents (km : KindMap) (frame : Bytes) :
    FrameEvents (frameAnswer km frame).1 (frameAnswer km frame).2 := by
  simp only [frameAnswer]
  split
  · exact .inr ⟨rfl, .inl rfl⟩
  · split
    · exact .nil _
    · exact .inr ⟨rfl, .inr (.inl rfl)⟩
    · exact .inr ⟨rfl, .inr (.inr ⟨_, rfl⟩)⟩

/-- A chunk that fits adds what its first frame gives, if it holds one. -/
theorem absorb_frameEvents {x : Progress} {c : Bytes} {p : Processed} (h : absorb x c = .ok p) :
    ∃ last, p.events = x.events ++ last ∧ FrameEvents p.packet last := by
  rcases absorb_cases h with ⟨m, rfl⟩ | ⟨m, r, frame, rfl⟩
  · exact ⟨[], (List.append_nil _).symm, .nil _⟩
  · obtain ⟨n, hn⟩ := frameToPacket_eq ⟨{ x.state with mem := m, wo := r, sc := 0 }, x.events⟩ frame
    rw [hn]
    exact ⟨_, rfl, frameAnswer_frameEvents _ frame⟩

/-- Events added in the order of R269: OVERFLOWs, then what one frame gives. -/
def OrderedFrom (before : List Event) (p : Processed) : Prop :=
  ∃ n last, p.events = before ++ (List.replicate n ⟨.overflow, none⟩ ++ last) ∧ FrameEvents p.packet last

theorem absorb_ordered {x : Progress} {c : Bytes} {p : Processed} (h : absorb x c = .ok p) :
    OrderedFrom x.events p :=
  ⟨0, absorb_frameEvents h⟩

/-- An overflow comes before whatever the passes after it add. -/
theorem OrderedFrom.of_overflowed {x : Progress} {p : Processed} (h : OrderedFrom (overflowed x).events p) :
    OrderedFrom x.events p := by
  obtain ⟨n, last, he, hlast⟩ := h
  refine ⟨n + 1, last, ?_, hlast⟩
  rw [he, overflowed_events, List.append_assoc, List.replicate_succ]
  rfl

theorem huntOn_ordered {x : Progress} {c : Bytes} {p : Processed} (h : huntOn x c = .ok p) :
    OrderedFrom x.events p := by
  refine huntOn_induct (motive := fun x _ r => ∀ p, r = .ok p → OrderedFrom x.events p)
    (fun x p h => ?_) (fun x b c r ih => ih) (fun x c r ih p h => ?_) (fun x c _ p h => ?_) x c p h
  · cases h
    exact ⟨0, [], (List.append_nil _).symm, .nil _⟩
  · exact OrderedFrom.of_overflowed (x := { x with state := x.state.endHunt }) (ih p h)
  · exact absorb_ordered (x := { x with state := x.state.endHunt }) h

theorem process_ordered {s : State} {c : Bytes} {p : Processed} (h : process s c = .ok p) : OrderedFrom [] p := by
  obtain ⟨-, e⟩ | ⟨-, -, e⟩ | ⟨-, -, e⟩ := process_cases s c <;> rw [e] at h
  · exact huntOn_ordered h
  · exact (huntOn_ordered h).of_overflowed
  · exact absorb_ordered h

/-- Settles O43: COMPLETE answers the events of PROCESS, which each overflow and then the one frame add to. -/
theorem eventsComeInTheOrderOfR269 : Obligations.EventsComeInTheOrderOfR269 := by
  intro s t h
  obtain ⟨p, hp, rfl⟩ := complete_next_iff.1 h
  obtain ⟨n, last, he, hlast⟩ := process_ordered hp
  refine ⟨p.packet, n, last, ?_, hlast⟩
  rw [State.deliverTo_deliveries, State.unlatch_deliveries, (process_outside hp).deliveries, he, List.nil_append]

end Sys2Proof.Machine
end

section
/-! SUPPORT. The bytes of a counter (20_memory.md R64), and the values of the codes (60_exceptions.md R261, R268). -/

namespace Sys2Proof.Machine

/-- Byte `i` of a counter is its `i`-th digit in base 256. -/
theorem Counter.byte_toNat (v : Counter) (i : Nat) : (v.extractLsb' (8 * i) 8).toNat = v.toNat / 256 ^ i % 256 := by
  rw [BitVec.extractLsb'_toNat, Nat.shiftRight_eq_div_pow, Nat.pow_mul]

/-- The four bytes of a counter, the least significant first, add up to its value. -/
theorem Counter.toNat_eq_sum_bytes (v : Counter) :
    v.toNat = (v.extractLsb' 0 8).toNat + 256 * (v.extractLsb' 8 8).toNat + 65536 * (v.extractLsb' 16 8).toNat
      + 16777216 * (v.extractLsb' 24 8).toNat := by
  have hv : v.toNat < 4294967296 := v.isLt
  rw [byte_toNat v 0, byte_toNat v 1, byte_toNat v 2, byte_toNat v 3]
  omega

/-- Settles O53: the codes by their table, and the bytes of a counter as its digits in base 256. -/
theorem codesAndCounterBytes : Obligations.CodesAndCounterBytes :=
  ⟨rfl, rfl, rfl, rfl, rfl, rfl, rfl, rfl, rfl, fun v => ⟨_, _, _, _, rfl, Counter.toNat_eq_sum_bytes v⟩⟩

end Sys2Proof.Machine
end

section
/-! SUPPORT. Teardown and creation of the instance (70_reset_and_hazards.md R290, R292). -/

namespace Sys2Proof.Machine

/-- A new instance is the reset state but for what outlives it: the configuration, the schedule and the responses. -/
theorem State.recreate_eq_reset_with (s : State) :
    s.recreate = { State.reset with cfg := s.cfg, queue := s.queue, deliveries := s.deliveries } := rfl

/-- Settles O7: the stimulus is taken off the schedule, and the instance is created anew. -/
theorem reconnectCreatesAFreshInstance : Obligations.ReconnectCreatesAFreshInstance := by
  intro s q h
  rw [step_of_queue_reconnect h, State.recreate_eq_reset_with]

end Sys2Proof.Machine
end
